-- ==== Sys2Proof/Word.lean ====
section
/-! DEFINITION. The plain words of the block: bytes, binary32 patterns and samples. -/

namespace Sys2Proof

/-- One byte of the frame buffer or of the release code (20_memory.md R60). -/
abbrev Byte := BitVec 8

/-- A binary32 pattern: bit 31 the sign, bits 30:23 the biased exponent, bits 22:0 the fraction
(30_encoding.md R90). -/
abbrev F32 := BitVec 32

/-- A sample after `zext_24` (30_encoding.md R88); the port is SAMPLE_BITS ≤ 24 bits wide
(00_scope.md R6), and `Instr.wellFormed` bounds the value by it. -/
abbrev Sample := BitVec 24

end Sys2Proof
end

