-- ==== Sys2Proof/Config.lean ====
section
/-! DEFINITION. What an implementation fixes (00_scope.md R6), what the host configures (R7), and the values the spec
leaves free. -/

namespace Sys2Proof

/-- The open elaboration parameters of 00_scope.md R6. "They cannot change while the block runs."
WIN_BITS = 16, DIV_BITS = 20 and binary32 are fixed by the same rule and are no fields. -/
structure Params where
  /-- SAMPLE_BITS: width of the unsigned sample. -/
  sampleBits : Nat
  /-- CODE_BYTES, written L: bytes of the release code and of the frame buffer. -/
  codeBytes : Nat
  deriving DecidableEq, Repr

/-- The configuration ports of 00_scope.md R7 and 10_state.md R22, with the encodings of 30_encoding.md R90. -/
structure Cfg where
  /-- COEF0, the Goertzel coefficient of tone 0. -/
  coef0 : F32
  /-- COEF1, the Goertzel coefficient of tone 1. -/
  coef1 : F32
  /-- THRESHOLD, written T. -/
  threshold : F32
  /-- WINDOW, written W: WIN_BITS = 16 bits. -/
  window : BitVec 16
  /-- BIT_RATE: DIV_BITS = 20 bits. -/
  bitRate : BitVec 20
  /-- RELEASE_CODE, the 8L-bit port; its width depends on L, so it is a number, and `cfgLegal` bounds it by `2^(8L)`. -/
  releaseCode : Nat
  deriving DecidableEq, Repr

/-- FREE VALUE (00_scope.md R11, D4): the sign (bit 22) and the 22 payload bits of the n-th NaN the block computes.
"Its sign and payload are not fixed, and a model takes any quiet NaN pattern as a free draw." Assumption log 5. -/
opaque Config.nanDraw : Nat → BitVec 23

/-- FREE VALUE: the payload index j = bit_count - 1 of 43_frame_decoder.md R161 where bit_count = 0, which is no natural
number. Only a state that reset cannot reach (R171 (b)) reads it. Assumption log 9. -/
opaque Config.indexBeforePayload : Nat

/-- FREE VALUE: what `cnt_k` holds after an increment whose sum 2^16 has no place in its WIN_BITS = 16 bits. The spec states none
("it does not wrap", 40_tone_estimator.md R101). Only states that reset cannot reach read it. Assumption log 8. -/
opaque Config.cntPastWidth : BitVec 16

/-- FREE VALUE: the same for `div_cnt` and its DIV_BITS = 20 bits (42_bit_sampler.md R142). Assumption log 8. -/
opaque Config.divCntPastWidth : BitVec 20

/-- FREE VALUE: the same for `bit_count` and its BC_BITS bits (43_frame_decoder.md R167), for each code length L; its low BC_BITS
bits are taken. Assumption log 8. -/
opaque Config.bitCountPastWidth : Nat → Nat

end Sys2Proof
end

