-- ==== Sys2Proof/Machine/Binary32.lean ====
section
/-! DEFINITION. The binary32 primitives of 00_scope.md R11: exact integers, then one rounding to nearest, ties to even. -/

namespace Sys2Proof.Machine

/-- What a binary32 pattern stands for. `mag` counts units of 2^-149, of which every finite binary32 is a multiple. -/
inductive FClass where
  | nan
  | inf (neg : Bool)
  | finite (neg : Bool) (mag : Nat)
  deriving DecidableEq, Repr

/-- Reads the fields of 30_encoding.md R90: exponent 255 is an infinity or a NaN, exponent 0 a zero or a subnormal. -/
def classify (x : F32) : FClass :=
  if x.toNat / 2 ^ 23 % 256 = 255 then
    if x.toNat % 2 ^ 23 = 0 then .inf (decide (2 ^ 31 ≤ x.toNat)) else .nan
  else
    .finite (decide (2 ^ 31 ≤ x.toNat))
      (if x.toNat / 2 ^ 23 % 256 = 0 then x.toNat % 2 ^ 23
       else (2 ^ 23 + x.toNat % 2 ^ 23) * 2 ^ (x.toNat / 2 ^ 23 % 256 - 1))

/-- The NaN patterns. -/
def isNaN (x : F32) : Bool := classify x == .nan

/-- The value of a finite pattern in units of 2^-149. -/
def signed (neg : Bool) (mag : Nat) : Int := if neg then -(mag : Int) else (mag : Int)

/-- How many low bits of `m · 2^-(149+k)` a binary32 drops: all below 2^-149, and all past 24 significant bits. -/
def droppedBits (m k : Nat) : Nat := max (Nat.log2 m + 1 - 24) k

/-- `m / 2^d` to the nearest integer, ties to the even one. -/
def roundShift (m d : Nat) : Nat :=
  if 2 ^ d < 2 * (m % 2 ^ d) ∨ (2 * (m % 2 ^ d) = 2 ^ d ∧ m / 2 ^ d % 2 = 1) then m / 2 ^ d + 1 else m / 2 ^ d

/-- Bits 30:0 of `m · 2^-(149+k)` rounded once, roundTiesToEven: exponent and fraction as one number, so that a carry out of
the fraction raises the exponent; from exponent 255 on, infinity. -/
def roundMag (m k : Nat) : Nat :=
  min ((droppedBits m k - k) * 2 ^ 23 + roundShift m (droppedBits m k)) (255 * 2 ^ 23)

/-- Sign and bits 30:0. -/
def packF32 (neg : Bool) (low : Nat) : F32 := BitVec.ofNat 32 ((if neg then 2 ^ 31 else 0) + low)

/-- ±∞. -/
def f32Inf (neg : Bool) : F32 := packF32 neg (255 * 2 ^ 23)

/-- The quiet NaN with the sign and the payload of the n-th draw (00_scope.md R11). -/
def drawnNaN (n : Nat) : F32 :=
  packF32 (decide (2 ^ 22 ≤ (Config.nanDraw n).toNat)) (0x7FC00000 + (Config.nanDraw n).toNat % 2 ^ 22)

/-- `f32_add(a, b)` (00_scope.md R11); `n` numbers the NaN pattern it draws if its result is a NaN. -/
def f32Add (n : Nat) (a b : F32) : F32 :=
  match classify a, classify b with
  | .nan, _ => drawnNaN n
  | _, .nan => drawnNaN n
  | .inf s, .inf t => if s = t then f32Inf s else drawnNaN n
  | .inf s, .finite _ _ => f32Inf s
  | .finite _ _, .inf t => f32Inf t
  | .finite s m, .finite t l =>
    if signed s m + signed t l = 0 then packF32 (s && t) 0
    else packF32 (decide (signed s m + signed t l < 0)) (roundMag (signed s m + signed t l).natAbs 0)

/-- The pattern with its sign inverted. -/
def f32Neg (a : F32) : F32 := a ^^^ 0x80000000#32

/-- `f32_sub(a, b)` (00_scope.md R11): IEEE 754 subtraction is addition of the operand with its sign inverted. -/
def f32Sub (n : Nat) (a b : F32) : F32 := f32Add n a (f32Neg b)

/-- `f32_mul(a, b)` (00_scope.md R11). The exact product counts units of 2^-298. -/
def f32Mul (n : Nat) (a b : F32) : F32 :=
  match classify a, classify b with
  | .nan, _ => drawnNaN n
  | _, .nan => drawnNaN n
  | .inf s, .inf t => f32Inf (s != t)
  | .inf s, .finite t l => if l = 0 then drawnNaN n else f32Inf (s != t)
  | .finite s m, .inf t => if m = 0 then drawnNaN n else f32Inf (s != t)
  | .finite s m, .finite t l => packF32 (s != t) (roundMag (m * l) 149)

/-- `u2f(n)` (00_scope.md R11), the conversion of `zext_24(sample)` (30_encoding.md R88). -/
def u2f (x : Sample) : F32 := packF32 false (roundMag (x.toNat * 2 ^ 149) 0)

end Sys2Proof.Machine
end

