-- ==== Sys2Proof/Syntax.lean ====
section
/-! DEFINITION. The 23 operations of spec/opcode_table.json, the operations of each select format, and select words. -/

namespace Sys2Proof

/-- The two FSK tones (00_scope.md, glossary). -/
inductive Tone where
  | t0
  | t1
  deriving DecidableEq, Repr

/-- What format TE chooses among (30_encoding.md R82). -/
inductive TeOp where
  | step
  | complete
  deriving DecidableEq, Repr

/-- What format SD chooses among (30_encoding.md R83). -/
inductive SdOp where
  | none
  | set0
  | set1
  | hold
  deriving DecidableEq, Repr

/-- What format DV chooses among (30_encoding.md R84). -/
inductive DvOp where
  | idle
  | count
  | wrap
  deriving DecidableEq, Repr

/-- What format BS chooses among (30_encoding.md R85). -/
inductive BsOp where
  | none
  | sample
  deriving DecidableEq, Repr

/-- What format FD chooses among (30_encoding.md R86); `b` is the sampled bit where the pattern leaves it open. -/
inductive FdOp where
  | nobit
  | ignore
  | sync
  | store (b : Bool)
  | accept (b : Bool)
  | reject (b : Bool)
  | overflow (b : Bool)
  deriving DecidableEq, Repr

/-- One constructor per row of spec/opcode_table.json. The operand of `sample` and `sampleTick` is the input port `sample`;
`k` of the TE rows is the tone ("TE is evaluated once per tone"). The bits RESET ignores (R240) are no operands. -/
inductive Instr where
  | nop
  | tick
  | sample (x : Sample)
  | sampleTick (x : Sample)
  | reset
  | teStep (k : Tone) (x : Sample)
  | teComplete (k : Tone) (x : Sample)
  | sdNone
  | sdSet0
  | sdSet1
  | sdHold
  | dvIdle
  | dvCount
  | dvWrap
  | bitNone
  | bitSample
  | fdNobit
  | fdIgnore
  | fdSync
  | fdStore (b : Bool)
  | fdAccept (b : Bool)
  | fdReject (b : Bool)
  | fdOverflow (b : Bool)
  deriving DecidableEq, Repr

/-- The row a TE choice stands for, for the tone and the sample it runs on. -/
def TeOp.toInstr (k : Tone) (x : Sample) : TeOp → Instr
  | .step => .teStep k x
  | .complete => .teComplete k x

/-- The row an SD choice stands for. -/
def SdOp.toInstr : SdOp → Instr
  | .none => .sdNone
  | .set0 => .sdSet0
  | .set1 => .sdSet1
  | .hold => .sdHold

/-- The row a DV choice stands for. -/
def DvOp.toInstr : DvOp → Instr
  | .idle => .dvIdle
  | .count => .dvCount
  | .wrap => .dvWrap

/-- The row a BS choice stands for. -/
def BsOp.toInstr : BsOp → Instr
  | .none => .bitNone
  | .sample => .bitSample

/-- The row an FD choice stands for. -/
def FdOp.toInstr : FdOp → Instr
  | .nobit => .fdNobit
  | .ignore => .fdIgnore
  | .sync => .fdSync
  | .store b => .fdStore b
  | .accept b => .fdAccept b
  | .reject b => .fdReject b
  | .overflow b => .fdOverflow b

/-- A select word: a format's select vector (30_encoding.md R80), with the operands the vector does not hold. -/
inductive SelectWord where
  /-- EV = {rst, sample_valid, us_tick} and the port `sample` (R81). -/
  | ev (v : BitVec 3) (x : Sample)
  /-- TE = {last}, for tone `k` and the cycle's sample (R82). -/
  | te (v : BitVec 1) (k : Tone) (x : Sample)
  /-- SD = {done, gt0, lt0, gt1, lt1} (R83). -/
  | sd (v : BitVec 5)
  /-- DV = {us_tick, wrap} (R84). -/
  | dv (v : BitVec 2)
  /-- BS = {fire} (R85). -/
  | bs (v : BitVec 1)
  /-- FD = {fire, sync, b, end, over, match} (R86). -/
  | fd (v : BitVec 6)
  deriving DecidableEq, Repr

/-- How many bits the word's format has (30_encoding.md R80). -/
def SelectWord.width : SelectWord → Nat
  | .ev .. => 3
  | .te .. => 1
  | .sd _ => 5
  | .dv _ => 2
  | .bs _ => 1
  | .fd _ => 6

/-- The select vector as a number, bit 0 the least significant. -/
def SelectWord.bits : SelectWord → Nat
  | .ev v _ => v.toNat
  | .te v _ _ => v.toNat
  | .sd v => v.toNat
  | .dv v => v.toNat
  | .bs v => v.toNat
  | .fd v => v.toNat

end Sys2Proof
end

