-- ==== Sys2Proof/WellFormed.lean ====
section
/-! DEFINITION. Well-formedness of an operation: its sample fits the SAMPLE_BITS-bit port. -/

namespace Sys2Proof

/-- "any value below 2^SAMPLE_BITS" (45_cycle.md R209). -/
def sampleFits (p : Params) (x : Sample) : Bool := decide (x.toNat < 2 ^ p.sampleBits)

/-- An operation the block of parameters `p` can be given: the sample of every operation that reads one fits the port. -/
def Instr.wellFormed (p : Params) : Instr → Bool
  | .sample x => sampleFits p x
  | .sampleTick x => sampleFits p x
  | .teStep _ x => sampleFits p x
  | .teComplete _ x => sampleFits p x
  | .nop | .tick | .reset => true
  | .sdNone | .sdSet0 | .sdSet1 | .sdHold => true
  | .dvIdle | .dvCount | .dvWrap | .bitNone | .bitSample => true
  | .fdNobit | .fdIgnore | .fdSync => true
  | .fdStore _ | .fdAccept _ | .fdReject _ | .fdOverflow _ => true

end Sys2Proof
end

