-- ==== Sys2Proof/Decode.lean ====
section
/-! DEFINITION. The opcode table, the decoder of every format (30_encoding.md R80 to R94), and the encoder. -/

namespace Sys2Proof

/-- One row of spec/opcode_table.json: a vector `v` matches where `v &&& mask = val`. -/
structure TableRow where
  mnemonic : String
  width : Nat
  mask : Nat
  val : Nat
  priority : Nat
  deriving DecidableEq, Repr

/-- Why a decoder refuses a vector. -/
inductive DecodeError where
  /-- No row of the format matches. -/
  | noRow
  /-- 30_encoding.md R92: an SD vector with gt_k = lt_k = 1 for some tone k. -/
  | gtAndLt
  /-- 30_encoding.md R92: an FD vector matching `11x11x`. -/
  | endAndOver
  deriving DecidableEq, Repr

/-- The row of spec/opcode_table.json that an operation stands for (30_encoding.md R81 to R86). -/
def Instr.row : Instr → TableRow
  | .nop => ⟨"NOP", 3, 0b111, 0b000, 1⟩
  | .tick => ⟨"TICK", 3, 0b111, 0b001, 1⟩
  | .sample _ => ⟨"SAMPLE", 3, 0b111, 0b010, 1⟩
  | .sampleTick _ => ⟨"SAMPLE_TICK", 3, 0b111, 0b011, 1⟩
  | .reset => ⟨"RESET", 3, 0b100, 0b100, 1⟩
  | .teStep .. => ⟨"TE_STEP", 1, 0b1, 0b0, 1⟩
  | .teComplete .. => ⟨"TE_COMPLETE", 1, 0b1, 0b1, 1⟩
  | .sdNone => ⟨"SD_NONE", 5, 0b10000, 0b00000, 1⟩
  | .sdSet0 => ⟨"SD_SET0", 5, 0b11001, 0b11001, 1⟩
  | .sdSet1 => ⟨"SD_SET1", 5, 0b10110, 0b10110, 1⟩
  | .sdHold => ⟨"SD_HOLD", 5, 0b10000, 0b10000, 2⟩
  | .dvIdle => ⟨"DV_IDLE", 2, 0b10, 0b00, 1⟩
  | .dvCount => ⟨"DV_COUNT", 2, 0b11, 0b10, 1⟩
  | .dvWrap => ⟨"DV_WRAP", 2, 0b11, 0b11, 1⟩
  | .bitNone => ⟨"BIT_NONE", 1, 0b1, 0b0, 1⟩
  | .bitSample => ⟨"BIT_SAMPLE", 1, 0b1, 0b1, 1⟩
  | .fdNobit => ⟨"FD_NOBIT", 6, 0b100000, 0b000000, 1⟩
  | .fdIgnore => ⟨"FD_IGNORE", 6, 0b111000, 0b100000, 1⟩
  | .fdSync => ⟨"FD_SYNC", 6, 0b111000, 0b101000, 1⟩
  | .fdStore _ => ⟨"FD_STORE", 6, 0b110110, 0b110000, 1⟩
  | .fdAccept _ => ⟨"FD_ACCEPT", 6, 0b110111, 0b110101, 1⟩
  | .fdReject _ => ⟨"FD_REJECT", 6, 0b110111, 0b110100, 1⟩
  | .fdOverflow _ => ⟨"FD_OVERFLOW", 6, 0b110110, 0b110010, 1⟩

/-- The vector `v` has the row's pattern (00_scope.md R8). -/
def TableRow.hits (r : TableRow) (v : Nat) : Bool := v &&& r.mask == r.val

/-- The first operation of the list whose row matches; the lists below stand in the order of R87, priority 1 before 2. -/
def firstRow {α : Type} (instrOf : α → Instr) (v : Nat) : List α → Except DecodeError α
  | [] => .error .noRow
  | a :: rest => if (instrOf a).row.hits v then .ok a else firstRow instrOf v rest

/-- Format EV (30_encoding.md R81). -/
def decodeEv (v : BitVec 3) (x : Sample) : Except DecodeError Instr :=
  firstRow id v.toNat [.nop, .tick, .sample x, .sampleTick x, .reset]

/-- Format TE (30_encoding.md R82). -/
def decodeTe (v : BitVec 1) : Except DecodeError TeOp :=
  firstRow (TeOp.toInstr .t0 0) v.toNat [.step, .complete]

/-- Format SD (30_encoding.md R83); first the vectors R92 refuses. Assumption log 10. -/
def decodeSd (v : BitVec 5) : Except DecodeError SdOp :=
  if (v.getLsbD 3 && v.getLsbD 2) || (v.getLsbD 1 && v.getLsbD 0) then .error .gtAndLt
  else firstRow SdOp.toInstr v.toNat [.none, .set0, .set1, .hold]

/-- Format DV (30_encoding.md R84). -/
def decodeDv (v : BitVec 2) : Except DecodeError DvOp :=
  firstRow DvOp.toInstr v.toNat [.idle, .count, .wrap]

/-- Format BS (30_encoding.md R85). -/
def decodeBs (v : BitVec 1) : Except DecodeError BsOp :=
  firstRow BsOp.toInstr v.toNat [.none, .sample]

/-- Format FD (30_encoding.md R86); first the vectors R92 refuses. The operand b is bit 3. -/
def decodeFd (v : BitVec 6) : Except DecodeError FdOp :=
  if v.getLsbD 5 && v.getLsbD 4 && v.getLsbD 2 && v.getLsbD 1 then .error .endAndOver
  else
    firstRow FdOp.toInstr v.toNat
      [.nobit, .ignore, .sync, .store (v.getLsbD 3), .accept (v.getLsbD 3), .reject (v.getLsbD 3),
        .overflow (v.getLsbD 3)]

/-- The decoder of every format: total, refusing by name. -/
def decode : SelectWord → Except DecodeError Instr
  | .ev v x => decodeEv v x
  | .te v k x => (decodeTe v).map (TeOp.toInstr k x)
  | .sd v => (decodeSd v).map SdOp.toInstr
  | .dv v => (decodeDv v).map DvOp.toInstr
  | .bs v => (decodeBs v).map BsOp.toInstr
  | .fd v => (decodeFd v).map FdOp.toInstr

/-- Bit 3 of an FD vector, the sampled bit b (30_encoding.md R86). -/
def fdBitField (b : Bool) : BitVec 6 := if b then 0b001000#6 else 0#6

/-- The word of an operation, written from the patterns of R81 to R86, every x of a pattern 0 but the operand b. -/
def encode : Instr → SelectWord
  | .nop => .ev 0b000#3 0
  | .tick => .ev 0b001#3 0
  | .sample x => .ev 0b010#3 x
  | .sampleTick x => .ev 0b011#3 x
  | .reset => .ev 0b100#3 0
  | .teStep k x => .te 0b0#1 k x
  | .teComplete k x => .te 0b1#1 k x
  | .sdNone => .sd 0b00000#5
  | .sdSet0 => .sd 0b11001#5
  | .sdSet1 => .sd 0b10110#5
  | .sdHold => .sd 0b10000#5
  | .dvIdle => .dv 0b00#2
  | .dvCount => .dv 0b10#2
  | .dvWrap => .dv 0b11#2
  | .bitNone => .bs 0b0#1
  | .bitSample => .bs 0b1#1
  | .fdNobit => .fd 0b000000#6
  | .fdIgnore => .fd 0b100000#6
  | .fdSync => .fd 0b101000#6
  | .fdStore b => .fd (0b110000#6 ||| fdBitField b)
  | .fdAccept b => .fd (0b110101#6 ||| fdBitField b)
  | .fdReject b => .fd (0b110100#6 ||| fdBitField b)
  | .fdOverflow b => .fd (0b110010#6 ||| fdBitField b)

/-- The select word that `nbits` bits with the number `w` are read as. The formats share their numbers (R80: the cycle, not
the word, says which format is evaluated), so the format comes from the width: exactly its own (TE before BS, which has the
same width), or, for whole bytes, the narrowest of EV, SD and FD that holds `w`. Operands the vector lacks are 0 and tone 0.
Assumption log 13. -/
def wordOfBits (nbits w : Nat) : Option SelectWord :=
  if w < 2 ^ nbits then
    match nbits with
    | 1 => some (.te (.ofNat 1 w) .t0 0)
    | 2 => some (.dv (.ofNat 2 w))
    | 3 => some (.ev (.ofNat 3 w) 0)
    | 5 => some (.sd (.ofNat 5 w))
    | 6 => some (.fd (.ofNat 6 w))
    | _ =>
      if w < 2 ^ 3 then some (.ev (.ofNat 3 w) 0)
      else if w < 2 ^ 5 then some (.sd (.ofNat 5 w))
      else if w < 2 ^ 6 then some (.fd (.ofNat 6 w))
      else none
  else none

/-- The instruction the decoder reads from a word numbered as spec/opcode_table.json numbers it. -/
def decodeTableWord (nbits w : Nat) : Option Instr :=
  match wordOfBits nbits w with
  | none => none
  | some word =>
    match decode word with
    | .ok i => some i
    | .error _ => none

end Sys2Proof
end

