-- ==== Sys2Proof/Machine/State.lean ====
section
/-! DEFINITION. The registers of 10_state.md, the ports, the reset state, and how a step can stop. -/

namespace Sys2Proof.Machine

/-- One ToneState (10_state.md R24). Its coefficient is the configuration field COEFk. -/
structure ToneState where
  q0 : F32
  q1 : F32
  q2 : F32
  /-- `cnt_k`, the source's sampleCount: WIN_BITS = 16 bits (R24). -/
  cnt : BitVec 16
  mag : F32
  deriving DecidableEq, Repr

/-- The input ports of one clock cycle (10_state.md R22). -/
structure Ports where
  rst : Bool
  sampleValid : Bool
  sample : Sample
  usTick : Bool
  /-- the six `cfg_*` ports -/
  cfg : Cfg
  deriving DecidableEq, Repr

/-- What is driven next: a clock cycle, or one step of the FrameDecoder's own interface (30_encoding.md R95, R160). -/
inductive Stimulus where
  | cycle (p : Ports)
  | fd (fire b : Bool)
  deriving DecidableEq, Repr

/-- The state of the block: the registers of 10_state.md R24 to R33 (R20: "exactly the named registers"), the parameters and
the configuration it was built and configured with, and the model's own fields `cfgOpen`, `draw` and `inputs`. -/
@[ext]
structure State where
  /-- R6: elaboration parameters; no operation writes them. -/
  params : Params
  /-- R7, R34: the `cfg_*` ports of the latest cycle; no operation writes them. -/
  cfg : Cfg
  /-- The MODEL's own: the latest cycle had `rst` = 1, so the next may change the configuration (R250). Log 4. -/
  cfgOpen : Bool
  /-- R24, tone 0. -/
  tone0 : ToneState
  /-- R24, tone 1. -/
  tone1 : ToneState
  /-- R27 -/
  symLevel : Bool
  /-- R28 -/
  symValid : Bool
  /-- R29: DIV_BITS = 20 bits. -/
  divCnt : BitVec 20
  /-- R30: 0 is Idle, 1 is Syncing. -/
  syncFlag : Bool
  /-- R31: BC_BITS bits. That width depends on L, so it is a number, which every write keeps below 2^BC_BITS
  (`nextBitCount`). Assumption log 8. -/
  bitCount : Nat
  /-- R32: L bytes, `buf[0]` first. -/
  buf : List Byte
  /-- R33 -/
  bitValid : Bool
  /-- R33 -/
  bitOut : Bool
  /-- R33, codes of 30_encoding.md R89. -/
  winCode : BitVec 2
  /-- R33, codes of 30_encoding.md R89. -/
  outcome : BitVec 2
  /-- R33 -/
  activate : Bool
  /-- The MODEL's own: the number of NaN patterns drawn so far (`Config.nanDraw`). Log 5. -/
  draw : Nat
  /-- The MODEL's own: what is driven in the coming steps; past its end the host drives no strobe. Log 3. -/
  inputs : List Stimulus
  deriving DecidableEq, Repr

/-- Reasons to stop with a fault: NONE. "The block raises no synchronous exception" (60_exceptions.md R220), and
93_implementation_defined.md: "No behaviour of the block is `fault` or `stuck`." No step of the model can fault (safe). -/
inductive Fault where
  deriving DecidableEq, Repr

/-- Reasons the model admits no run. -/
inductive Refusal where
  /-- Raised by `exec` alone, for an operation that has no meaning yet. Safe. -/
  | notModelled (mnemonic : String)
  /-- Raised by every operation under a configuration or parameters that 30_encoding.md R91 refuses. Safe: "a model refuses it: it
  admits no run". -/
  | refusedConfiguration
  /-- Raised by the cycle step where `rst` = 0 and a `cfg_*` port differs from the cycle before (R250). Safe: "a refused run". -/
  | configurationChanged
  /-- Raised by the cycle step where the `sample` port, in a cycle that reads it, holds a value its SAMPLE_BITS wires cannot
  carry (45_cycle.md R209). Safe: no host can drive it. -/
  | sampleTooWide
  /-- Raised where a decoder meets a vector no row covers (30_encoding.md R92). Safe; no state selects one. -/
  | unreachableVector (e : DecodeError)
  deriving DecidableEq, Repr

/-- +0.0 (00_scope.md R11). -/
def f32Zero : F32 := 0x00000000#32

/-- The reset value of a ToneState (10_state.md R24, D14). -/
def ToneState.reset : ToneState := ⟨f32Zero, f32Zero, f32Zero, 0, f32Zero⟩

/-- The block right after a reset cycle (70_reset_and_hazards.md R240, R242), for any parameters and configuration ports. -/
def State.resetFor (p : Params) (c : Cfg) : State where
  params := p
  cfg := c
  cfgOpen := true
  tone0 := ToneState.reset
  tone1 := ToneState.reset
  symLevel := false
  symValid := false
  divCnt := 0
  syncFlag := false
  bitCount := 0
  buf := List.replicate p.codeBytes 0x00#8
  bitValid := false
  bitOut := false
  winCode := 0b00#2
  outcome := 0b00#2
  activate := false
  draw := 0
  inputs := []

/-- DESIGN CHOICE (log 1): the parameters of `State.reset`, those of 95_test_vectors.md E1. -/
def Params.initial : Params := ⟨8, 2⟩

/-- DESIGN CHOICE (log 2): the configuration ports of `State.reset`, those of program P1 of 95_test_vectors.md. -/
def Cfg.initial : Cfg := ⟨0xC0000000#32, 0x00000000#32, 0x42000000#32, 4#16, 250000#20, 0xAAAA⟩

/-- The machine right after reset. -/
def State.reset : State := State.resetFor Params.initial Cfg.initial

/-- The output ports of 10_state.md R23. -/
structure Outputs where
  symLevel : Bool
  symPin : Bool
  symValid : Bool
  winCode : BitVec 2
  bitValid : Bool
  bitOut : Bool
  outcome : BitVec 2
  activate : Bool
  syncFlag : Bool
  bitCount : Nat
  mag0 : F32
  mag1 : F32
  deriving DecidableEq, Repr

/-- "every output is a function of the state alone" (10_state.md R23); `sym_pin` always equals `sym_level` (R127). -/
def State.outputs (s : State) : Outputs where
  symLevel := s.symLevel
  symPin := s.symLevel
  symValid := s.symValid
  winCode := s.winCode
  bitValid := s.bitValid
  bitOut := s.bitOut
  outcome := s.outcome
  activate := s.activate
  syncFlag := s.syncFlag
  bitCount := s.bitCount
  mag0 := s.tone0.mag
  mag1 := s.tone1.mag

end Sys2Proof.Machine
end

