-- ==== Sys2Proof/Machine/Operands.lean ====
section
/-! DEFINITION. Operand assembly: the tones, the counters, the bit period, the release code and the frame buffer's bits. -/

namespace Sys2Proof.Machine

/-- The ToneState of tone `k` (10_state.md R24). -/
def State.tone (s : State) : Tone → ToneState
  | .t0 => s.tone0
  | .t1 => s.tone1

/-- Writes the ToneState of tone `k`. -/
def State.setTone (s : State) (k : Tone) (t : ToneState) : State :=
  match k with
  | .t0 => { s with tone0 := t }
  | .t1 => { s with tone1 := t }

/-- COEFk (40_tone_estimator.md). -/
def State.coef (s : State) : Tone → F32
  | .t0 => s.cfg.coef0
  | .t1 => s.cfg.coef1

/-- P = floor(1,000,000 / BIT_RATE) (42_bit_sampler.md R140). -/
def bitPeriod (c : Cfg) : Nat := 1000000 / c.bitRate.toNat

/-- The least n with 2^n > 8L + 1 (00_scope.md R6). -/
def bcBits (codeBytes : Nat) : Nat := Nat.log2 (8 * codeBytes + 1) + 1

/-- `c + 1` in the register of `c`. No rule wraps an integer (00_scope.md R9); where the sum does not fit, which no run reaches,
the register is left with the free value `past`. Assumption log 8. -/
def increment {n : Nat} (past c : BitVec n) : BitVec n := if c.toNat + 1 < 2 ^ n then c + 1 else past

/-- `bit_count + 1` in BC_BITS bits (10_state.md R31), in the same way. -/
def nextBitCount (s : State) : Nat :=
  if s.bitCount + 1 < 2 ^ bcBits s.params.codeBytes then s.bitCount + 1
  else Config.bitCountPastWidth s.params.codeBytes % 2 ^ bcBits s.params.codeBytes

/-- `rc[i]`, bits [8L-1-8i : 8L-8-8i] of the port `cfg_release_code` (30_encoding.md R90). -/
def rcByte (codeBytes code i : Nat) : Byte := BitVec.ofNat 8 (code >>> (8 * codeBytes - 8 - 8 * i))

/-- `rc[0..L-1]`. -/
def rcBytes (s : State) : List Byte :=
  (List.range s.params.codeBytes).map (rcByte s.params.codeBytes s.cfg.releaseCode)

/-- The port `cfg_release_code` that carries the given bytes, byte 0 the most significant (30_encoding.md R90). -/
def packCode (bytes : List Byte) : Nat := bytes.foldl (fun n b => 256 * n + b.toNat) 0

/-- BufRead(j) = buf[j div 8][7 - (j mod 8)] (20_memory.md R61). -/
def bufRead (buf : List Byte) (j : Nat) : Bool := (buf.getD (j / 8) 0#8).getLsbD (7 - j % 8)

/-- Bit `i` of a byte assigned `b`. -/
def setBit (v : Byte) (i : Nat) (b : Bool) : Byte :=
  if b then v ||| (1#8 <<< i) else v &&& ~~~(1#8 <<< i)

/-- BufWrite(j, b): buf[j div 8][7 - (j mod 8)] <- b, every other bit keeps its value (20_memory.md R61). -/
def bufWrite (buf : List Byte) (j : Nat) (b : Bool) : List Byte :=
  buf.modify (j / 8) fun v => setBit v (7 - j % 8) b

/-- The payload index j = bit_count - 1 (43_frame_decoder.md R161). Assumption log 9 for bit_count = 0. -/
def payloadIndex (s : State) : Nat :=
  match s.bitCount with
  | 0 => Config.indexBeforePayload
  | j + 1 => j

/-- `buf'` (43_frame_decoder.md R161): the buffer with the bit written, or unchanged where j ≥ 8L. -/
def nextBuf (s : State) (b : Bool) : List Byte :=
  if payloadIndex s < 8 * s.params.codeBytes then bufWrite s.buf (payloadIndex s) b else s.buf

end Sys2Proof.Machine
end

