-- ==== Sys2Proof/Machine/Flags.lean ====
section
/-! DEFINITION. The conditions the select vectors are made of (30_encoding.md R82 to R86), and the comparisons. -/

namespace Sys2Proof.Machine

/-- `f32_gt(a, b)` (00_scope.md R11): ordered, false when either operand is a NaN, and +0.0 and -0.0 compare equal. -/
def f32Gt (a b : F32) : Bool :=
  match classify a, classify b with
  | .nan, _ => false
  | _, .nan => false
  | .inf s, .inf t => !s && t
  | .inf s, .finite _ _ => !s
  | .finite _ _, .inf t => t
  | .finite s m, .finite t l => decide (signed t l < signed s m)

/-- `f32_lt(a, b)` (00_scope.md R11). -/
def f32Lt (a b : F32) : Bool := f32Gt b a

/-- `last` = (cnt_k + 1 == W) (R82). -/
def lastFlag (s : State) (k : Tone) : Bool := decide ((s.tone k).cnt.toNat + 1 = s.cfg.window.toNat)

/-- `wrap` = (div_cnt + 1 == P) (R84). -/
def wrapFlag (s : State) : Bool := decide (s.divCnt.toNat + 1 = bitPeriod s.cfg)

/-- `end` = (bit_count + 1 == 8L + 1) (R86). -/
def endFlag (s : State) : Bool := decide (s.bitCount + 1 = 8 * s.params.codeBytes + 1)

/-- `over` = (bit_count + 1 > 8L + 1) (R86). -/
def overFlag (s : State) : Bool := decide (8 * s.params.codeBytes + 1 < s.bitCount + 1)

/-- `match` = (buf' == rc), the code matcher of 43_frame_decoder.md R162: all 8L bits at once. -/
def matchFlag (s : State) (b : Bool) : Bool := nextBuf s b == rcBytes s

/-- A bit as a number. -/
def bitNat (b : Bool) : Nat := if b then 1 else 0

/-- EV = {rst, sample_valid, us_tick} (R81). -/
def evVector (rst sampleValid usTick : Bool) : BitVec 3 :=
  .ofNat 3 (4 * bitNat rst + 2 * bitNat sampleValid + bitNat usTick)

/-- TE = {last} (R82). -/
def teVector (s : State) (k : Tone) : BitVec 1 := .ofNat 1 (bitNat (lastFlag s k))

/-- SD = {done, gt0, lt0, gt1, lt1} (R83, R121), from the results of the two updates of the cycle: `none` for "nothing",
`some m` for "Some(magnitude)" (R100). Bits 3 to 0 matter only when done = 1. Assumption log 6. -/
def sdVector (m0 m1 : Option F32) (threshold : F32) : BitVec 5 :=
  match m0, m1 with
  | some m0, some m1 =>
    .ofNat 5 (16 + 8 * bitNat (f32Gt m0 threshold) + 4 * bitNat (f32Lt m0 threshold)
      + 2 * bitNat (f32Gt m1 threshold) + bitNat (f32Lt m1 threshold))
  | _, _ => 0b00000#5

/-- DV = {us_tick, wrap} (R84). -/
def dvVector (s : State) (usTick : Bool) : BitVec 2 := .ofNat 2 (2 * bitNat usTick + bitNat (wrapFlag s))

/-- `fire` = 1 exactly when DV_WRAP is selected in this cycle (R85). -/
def fireOf : DvOp → Bool
  | .idle => false
  | .count => false
  | .wrap => true

/-- BS = {fire} (R85). -/
def bsVector (fire : Bool) : BitVec 1 := .ofNat 1 (bitNat fire)

/-- FD = {fire, sync, b, end, over, match} (R86, R163). `buf'` is computed where fire = 1 and sync_flag = 1 (R161); elsewhere
no row reads `match`. -/
def fdVector (s : State) (fire b : Bool) : BitVec 6 :=
  .ofNat 6 (32 * bitNat fire + 16 * bitNat s.syncFlag + 8 * bitNat b + 4 * bitNat (endFlag s) + 2 * bitNat (overFlag s)
    + bitNat (fire && s.syncFlag && matchFlag s b))

end Sys2Proof.Machine
end

