-- ==== Sys2Proof/Machine/Ops.lean ====
section
/-! DEFINITION. Shared operations: legality of a configuration, sequencing, the clears, the filter's arithmetic. -/

namespace Sys2Proof.Machine

/-- What a step answers. -/
abbrev Result := Host.Outcome State Fault Refusal

/-- The parameters 30_encoding.md R91 admits: L ≥ 1 and 1 ≤ SAMPLE_BITS ≤ 24. -/
def paramsLegal (p : Params) : Bool := decide (1 ≤ p.codeBytes ∧ 1 ≤ p.sampleBits ∧ p.sampleBits ≤ 24)

/-- The port values 30_encoding.md R91 and 00_scope.md R7 admit: W ≥ 1, 1 ≤ BIT_RATE ≤ 1,000,000, an 8L-bit code. -/
def cfgLegal (p : Params) (c : Cfg) : Bool :=
  decide (1 ≤ c.window.toNat ∧ 1 ≤ c.bitRate.toNat ∧ c.bitRate.toNat ≤ 1000000 ∧ c.releaseCode < 2 ^ (8 * p.codeBytes))

/-- The configuration is not one that 30_encoding.md R91 refuses. -/
def legalConfig (s : State) : Bool := paramsLegal s.params && cfgLegal s.params s.cfg

/-- "For such a configuration the block has no defined behaviour, and a model refuses it" (30_encoding.md R91). -/
def whenLegal (s : State) (r : Result) : Result :=
  if legalConfig s then r else .refused .refusedConfiguration

/-- Goes on with the state `r` answers. -/
def andThen (r : Result) (f : State → Result) : Result :=
  match r with
  | .next s => f s
  | .fault e => .fault e
  | .refused e => .refused e

/-- Goes on with the decoded operation; "a decoder that meets one refuses it" (30_encoding.md R92). -/
def withSelected {α : Type} (d : Except DecodeError α) (f : α → Result) : Result :=
  match d with
  | .ok a => f a
  | .error e => .refused (.unreachableVector e)

/-- Clears every output strobe register (45_cycle.md R204); the operations of the cycle then write theirs. -/
def clearStrobes (s : State) : State :=
  { s with bitValid := false, bitOut := false, winCode := 0b00#2, outcome := 0b00#2, activate := false }

/-- Clears the FrameDecoder's own strobes (45_cycle.md R204, 43_frame_decoder.md R164). -/
def clearFrameStrobes (s : State) : State := { s with outcome := 0b00#2, activate := false }

/-- buf <- all 0x00. -/
def clearedBuf (s : State) : List Byte := List.replicate s.params.codeBytes 0x00#8

/-- "Clear the frame" (43_frame_decoder.md): sync_flag <- 0; buf <- all 0x00; bit_count <- 0. -/
def clearFrame (s : State) : State := { s with syncFlag := false, buf := clearedBuf s, bitCount := 0 }

/-- The advance of 40_tone_estimator.md R101: v = f32_sub(f32_add(x, f32_mul(c, q1)), q2). Draws `n` to `n + 2`. -/
def goertzelAdvance (n : Nat) (c q1 q2 x : F32) : F32 := f32Sub (n + 2) (f32Add (n + 1) x (f32Mul n c q1)) q2

/-- The magnitude of 40_tone_estimator.md R102, n1·n1 + n2·n2 - c·n1·n2 in the order of 00_scope.md R12.
Draws `n` to `n + 5`. -/
def goertzelMagnitude (n : Nat) (c n1 n2 : F32) : F32 :=
  f32Sub (n + 5) (f32Add (n + 2) (f32Mul n n1 n1) (f32Mul (n + 1) n2 n2)) (f32Mul (n + 4) (f32Mul (n + 3) c n1) n2)

/-- Every register of the block at its reset value (70_reset_and_hazards.md R240); ports and parameters are no registers. -/
def resetRegisters (s : State) : State :=
  { s with
    tone0 := ToneState.reset
    tone1 := ToneState.reset
    symLevel := false
    symValid := false
    divCnt := 0
    syncFlag := false
    bitCount := 0
    buf := clearedBuf s
    bitValid := false
    bitOut := false
    winCode := 0b00#2
    outcome := 0b00#2
    activate := false }

end Sys2Proof.Machine
end

