-- ==== Sys2Proof/Machine/BitSampler.lean ====
section
/-! DEFINITION. The bit-rate divider and the BitSampler (42_bit_sampler.md). -/

namespace Sys2Proof.Machine

/-- DV_IDLE (R141): div_cnt keeps its value. -/
def dvIdle (s : State) : State := s

/-- DV_COUNT (R142). -/
def dvCount (s : State) : State := { s with divCnt := increment Config.divCntPastWidth s.divCnt }

/-- DV_WRAP (R143). -/
def dvWrap (s : State) : State := { s with divCnt := 0 }

/-- BIT_NONE (30_encoding.md R85): nothing but the strobe clear of 45_cycle.md R204, here of the sampler's own strobes (DESIGN
CHOICE, assumption log 7). -/
def bitNone (s : State) : State := { s with bitValid := false, bitOut := false }

/-- BIT_SAMPLE (R144). -/
def bitSample (s : State) : State := { s with bitValid := true, bitOut := s.symLevel }

/-- DV_IDLE as an operation of its own. -/
def execDvIdle (s : State) : Result := whenLegal s (.next (dvIdle s))

/-- DV_COUNT as an operation of its own. -/
def execDvCount (s : State) : Result := whenLegal s (.next (dvCount s))

/-- DV_WRAP as an operation of its own. -/
def execDvWrap (s : State) : Result := whenLegal s (.next (dvWrap s))

/-- BIT_NONE as an operation of its own. -/
def execBitNone (s : State) : Result := whenLegal s (.next (bitNone s))

/-- BIT_SAMPLE as an operation of its own. -/
def execBitSample (s : State) : Result := whenLegal s (.next (bitSample s))

/-- Performs what format DV selected. -/
def performDv (o : DvOp) (s : State) : State :=
  match o with
  | .idle => dvIdle s
  | .count => dvCount s
  | .wrap => dvWrap s

/-- Performs what format BS selected. -/
def performBs (o : BsOp) (s : State) : State :=
  match o with
  | .none => bitNone s
  | .sample => bitSample s

end Sys2Proof.Machine
end

