-- ==== Sys2Proof/Machine/FrameDecoder.lean ====
section
/-! DEFINITION. FrameDecoder: its seven operations (43_frame_decoder.md R164 to R170). Each clears the sub-block's strobes
`outcome` and `activate` where it does not write them (45_cycle.md R204). -/

namespace Sys2Proof.Machine

/-- FD_NOBIT (R164). -/
def fdNobit (s : State) : State := clearFrameStrobes s

/-- FD_IGNORE (R165). -/
def fdIgnore (s : State) : State := clearFrameStrobes s

/-- FD_SYNC (R166). -/
def fdSync (s : State) : State := { clearFrameStrobes s with syncFlag := true, buf := clearedBuf s, bitCount := 1 }

/-- FD_STORE (R167). -/
def fdStore (b : Bool) (s : State) : State :=
  { clearFrameStrobes s with buf := nextBuf s b, bitCount := nextBitCount s }

/-- FD_ACCEPT (R168). -/
def fdAccept (_b : Bool) (s : State) : State := { clearFrame s with outcome := 0b01#2, activate := true }

/-- FD_REJECT (R169); activate is not written, so it is 0. -/
def fdReject (_b : Bool) (s : State) : State := { clearFrame s with outcome := 0b10#2, activate := false }

/-- FD_OVERFLOW (R170); activate is not written, so it is 0. -/
def fdOverflow (_b : Bool) (s : State) : State := { clearFrame s with outcome := 0b11#2, activate := false }

/-- FD_NOBIT as an operation of its own. -/
def execFdNobit (s : State) : Result := whenLegal s (.next (fdNobit s))

/-- FD_IGNORE as an operation of its own. -/
def execFdIgnore (s : State) : Result := whenLegal s (.next (fdIgnore s))

/-- FD_SYNC as an operation of its own. -/
def execFdSync (s : State) : Result := whenLegal s (.next (fdSync s))

/-- FD_STORE as an operation of its own. -/
def execFdStore (b : Bool) (s : State) : Result := whenLegal s (.next (fdStore b s))

/-- FD_ACCEPT as an operation of its own. -/
def execFdAccept (b : Bool) (s : State) : Result := whenLegal s (.next (fdAccept b s))

/-- FD_REJECT as an operation of its own. -/
def execFdReject (b : Bool) (s : State) : Result := whenLegal s (.next (fdReject b s))

/-- FD_OVERFLOW as an operation of its own. -/
def execFdOverflow (b : Bool) (s : State) : Result := whenLegal s (.next (fdOverflow b s))

/-- Performs what format FD selected. -/
def performFd (o : FdOp) (s : State) : State :=
  match o with
  | .nobit => fdNobit s
  | .ignore => fdIgnore s
  | .sync => fdSync s
  | .store b => fdStore b s
  | .accept b => fdAccept b s
  | .reject b => fdReject b s
  | .overflow b => fdOverflow b s

end Sys2Proof.Machine
end

