-- ==== Sys2Proof/Machine/ToneEstimator.lean ====
section
/-! DEFINITION. ToneEnergyEstimator: TE_STEP and TE_COMPLETE (40_tone_estimator.md). -/

namespace Sys2Proof.Machine

/-- `v` of tone `k` in a cycle with sample `x` (R101, R102). -/
def advanceOf (k : Tone) (x : Sample) (s : State) : F32 :=
  goertzelAdvance s.draw (s.coef k) (s.tone k).q1 (s.tone k).q2 (u2f x)

/-- `m` of tone `k` where the sample `x` completes its window (R102). -/
def magnitudeOf (k : Tone) (x : Sample) (s : State) : F32 :=
  goertzelMagnitude (s.draw + 3) (s.coef k) (advanceOf k x s) (s.tone k).q1

/-- The next `n` NaN draws are used up (`Config.nanDraw`). -/
def usedDraws (n : Nat) (s : State) : State := { s with draw := s.draw + n }

/-- TE_STEP (R101). `mag_k` is not written. Uses three draws. -/
def teStep (k : Tone) (x : Sample) (s : State) : State :=
  let v := advanceOf k x s
  let t := s.tone k
  usedDraws 3 (s.setTone k { t with q0 := v, q2 := t.q1, q1 := v, cnt := increment Config.cntPastWidth t.cnt })

/-- TE_COMPLETE (R102). `q0_k` is not cleared. Uses nine draws. -/
def teComplete (k : Tone) (x : Sample) (s : State) : State :=
  usedDraws 9 <|
    s.setTone k { q0 := advanceOf k x s, q1 := f32Zero, q2 := f32Zero, cnt := 0, mag := magnitudeOf k x s }

/-- TE_STEP as an operation of its own. -/
def execTeStep (k : Tone) (x : Sample) (s : State) : Result := whenLegal s (.next (teStep k x s))

/-- TE_COMPLETE as an operation of its own. -/
def execTeComplete (k : Tone) (x : Sample) (s : State) : Result := whenLegal s (.next (teComplete k x s))

/-- Performs what format TE selected for tone `k`. -/
def performTe (o : TeOp) (k : Tone) (x : Sample) (s : State) : State :=
  match o with
  | .step => teStep k x s
  | .complete => teComplete k x s

/-- The result of `update` (R100) once it is performed: nothing, or the magnitude this cycle writes to `mag_k`. -/
def updateResult (o : TeOp) (k : Tone) (s : State) : Option F32 :=
  match o with
  | .step => none
  | .complete => some (s.tone k).mag

end Sys2Proof.Machine
end

