-- ==== Sys2Proof/Machine/SymbolDetector.lean ====
section
/-! DEFINITION. SymbolDetector: SD_NONE, SD_SET0, SD_SET1, SD_HOLD and the sample datapath (41_symbol_detector.md). -/

namespace Sys2Proof.Machine

/-- SD_NONE (R122). -/
def sdNone (s : State) : State := { s with winCode := 0b00#2 }

/-- SD_SET0 (R123). -/
def sdSet0 (s : State) : State := { s with symLevel := false, symValid := true, winCode := 0b01#2 }

/-- SD_SET1 (R124). -/
def sdSet1 (s : State) : State := { s with symLevel := true, symValid := true, winCode := 0b10#2 }

/-- SD_HOLD (R125). -/
def sdHold (s : State) : State := { s with winCode := 0b11#2 }

/-- SD_NONE as an operation of its own. -/
def execSdNone (s : State) : Result := whenLegal s (.next (sdNone s))

/-- SD_SET0 as an operation of its own. -/
def execSdSet0 (s : State) : Result := whenLegal s (.next (sdSet0 s))

/-- SD_SET1 as an operation of its own. -/
def execSdSet1 (s : State) : Result := whenLegal s (.next (sdSet1 s))

/-- SD_HOLD as an operation of its own. -/
def execSdHold (s : State) : Result := whenLegal s (.next (sdHold s))

/-- Performs what format SD selected. -/
def performSd (o : SdOp) (s : State) : State :=
  match o with
  | .none => sdNone s
  | .set0 => sdSet0 s
  | .set1 => sdSet1 s
  | .hold => sdHold s

/-- The sample datapath (R120): both updates with the same sample, then the SD operation of the vector of R121. -/
def samplePath (x : Sample) (s : State) : Result :=
  withSelected (decodeTe (teVector s .t0)) fun te0 =>
    withSelected (decodeTe (teVector s .t1)) fun te1 =>
      let s' := performTe te1 .t1 x (performTe te0 .t0 x s)
      withSelected (decodeSd (sdVector (updateResult te0 .t0 s') (updateResult te1 .t1 s') s.cfg.threshold)) fun sd =>
        .next (performSd sd s')

end Sys2Proof.Machine
end

