-- ==== Sys2Proof/Machine/Cycle.lean ====
section
/-! DEFINITION. The operations of format EV: one clock cycle (45_cycle.md R200 to R206, 70_reset_and_hazards.md R240). -/

namespace Sys2Proof.Machine

/-- The bit path (R201): DV, then BS, then FD with (fire, b), b = `sym_level` at the start of the cycle (R144). -/
def bitPath (usTick : Bool) (s : State) : Result :=
  withSelected (decodeDv (dvVector s usTick)) fun dv =>
    withSelected (decodeBs (bsVector (fireOf dv))) fun bs =>
      withSelected (decodeFd (fdVector s (fireOf dv) s.symLevel)) fun fd =>
        .next (performFd fd (performBs bs (performDv dv s)))

/-- One cycle without reset (R201). The two paths write disjoint registers, and of each other's they read only `sym_level`,
which the bit path reads as it stood at the start of the cycle (20_memory.md R68): so the bit path is performed first. -/
def cycle (sample : Option Sample) (usTick : Bool) (s : State) : Result :=
  andThen (bitPath usTick (clearStrobes s)) fun s' =>
    match sample with
    | none => .next s'
    | some x => samplePath x s'

/-- NOP (R202). -/
def execNop (s : State) : Result := whenLegal s (cycle none false s)

/-- TICK (R203). -/
def execTick (s : State) : Result := whenLegal s (cycle none true s)

/-- SAMPLE (R205). -/
def execSample (x : Sample) (s : State) : Result := whenLegal s (cycle (some x) false s)

/-- SAMPLE_TICK (R206). -/
def execSampleTick (x : Sample) (s : State) : Result := whenLegal s (cycle (some x) true s)

/-- RESET (70_reset_and_hazards.md R240). -/
def execReset (s : State) : Result := whenLegal s (.next (resetRegisters s))

end Sys2Proof.Machine
end

