-- ==== Sys2Proof/Machine/Dispatch.lean ====
section
/-! DEFINITION. One arm per operation of spec/opcode_table.json. -/

namespace Sys2Proof.Machine

def exec (i : Instr) (s : State) : Host.Outcome State Fault Refusal :=
  match i with
  | .nop => Sys2Proof.Machine.execNop s
  | .tick => Sys2Proof.Machine.execTick s
  | .sample x => Sys2Proof.Machine.execSample x s
  | .sampleTick x => Sys2Proof.Machine.execSampleTick x s
  | .reset => Sys2Proof.Machine.execReset s
  | .teStep k x => Sys2Proof.Machine.execTeStep k x s
  | .teComplete k x => Sys2Proof.Machine.execTeComplete k x s
  | .sdNone => Sys2Proof.Machine.execSdNone s
  | .sdSet0 => Sys2Proof.Machine.execSdSet0 s
  | .sdSet1 => Sys2Proof.Machine.execSdSet1 s
  | .sdHold => Sys2Proof.Machine.execSdHold s
  | .dvIdle => Sys2Proof.Machine.execDvIdle s
  | .dvCount => Sys2Proof.Machine.execDvCount s
  | .dvWrap => Sys2Proof.Machine.execDvWrap s
  | .bitNone => Sys2Proof.Machine.execBitNone s
  | .bitSample => Sys2Proof.Machine.execBitSample s
  | .fdNobit => Sys2Proof.Machine.execFdNobit s
  | .fdIgnore => Sys2Proof.Machine.execFdIgnore s
  | .fdSync => Sys2Proof.Machine.execFdSync s
  | .fdStore b => Sys2Proof.Machine.execFdStore b s
  | .fdAccept b => Sys2Proof.Machine.execFdAccept b s
  | .fdReject b => Sys2Proof.Machine.execFdReject b s
  | .fdOverflow b => Sys2Proof.Machine.execFdOverflow b s

end Sys2Proof.Machine
end

