-- ==== Sys2Proof/Machine/Run.lean ====
section
/-! DEFINITION. From what is driven to the operation that runs: the ports of a clock cycle, the FrameDecoder's own interface,
and the placing of one select word before the block. -/

namespace Sys2Proof.Machine

/-- The EV word of a cycle and its operand (30_encoding.md R81). -/
def evWord (p : Ports) : SelectWord := .ev (evVector p.rst p.sampleValid p.usTick) p.sample

/-- The configuration rule of 70_reset_and_hazards.md R250: with rst = 0 the ports hold the values of the cycle before, unless
that cycle had rst = 1. -/
def cfgHeld (p : Ports) (s : State) : Bool := p.rst || s.cfgOpen || p.cfg == s.cfg

/-- The configuration the cycle reads, and whether the next one may change it (R250). -/
def latchPorts (p : Ports) (s : State) : State := { s with cfg := p.cfg, cfgOpen := p.rst }

/-- Runs a decoded operation whose sample its port can carry (45_cycle.md R209). -/
def runDecoded (i : Instr) (s : State) : Result :=
  if i.wellFormed s.params then exec i s else .refused .sampleTooWide

/-- One clock cycle: EV is formed and decoded (30_encoding.md R87), and its operation performed (45_cycle.md R200). -/
def clockCycle (p : Ports) (s : State) : Result :=
  if cfgHeld p s then withSelected (decode (evWord p)) fun i => runDecoded i (latchPorts p s)
  else .refused .configurationChanged

/-- One FrameDecoder step at its own interface (43_frame_decoder.md R160, R163; 30_encoding.md R95): the FD operation of the
vector, and nothing of the other sub-blocks. Assumption log 7. -/
def frameStep (fire b : Bool) (s : State) : Result :=
  withSelected (decodeFd (fdVector s fire b)) fun fd => runDecoded fd.toInstr { s with cfgOpen := false }

/-- The ports of a cycle in which the host drives no strobe and holds the configuration (60_exceptions.md R231). -/
def idlePorts (s : State) : Ports := ⟨false, false, 0#24, false, s.cfg⟩

/-- What is driven now. Assumption log 3 for the end of the list. -/
def nextStimulus (s : State) : Stimulus :=
  match s.inputs with
  | [] => .cycle (idlePorts s)
  | q :: _ => q

/-- The state once the present stimulus is taken from the list. -/
def takeStimulus (s : State) : State := { s with inputs := s.inputs.tail }

/-- Performs one stimulus. -/
def respond (q : Stimulus) (s : State) : Result :=
  match q with
  | .cycle p => clockCycle p s
  | .fd fire b => frameStep fire b s

/-- Puts a stimulus before all others. -/
def drive (q : Stimulus) (s : State) : State := { s with inputs := q :: s.inputs }

/-- Drives a cycle under the configuration `s` holds. -/
def driveCycle (rst sampleValid : Bool) (x : Sample) (usTick : Bool) (s : State) : State :=
  drive (.cycle ⟨rst, sampleValid, x, usTick, s.cfg⟩) s

/-- Sets both window counters to 0 and W to `w`, so that the next sample completes a window where `w` = 1. -/
def atWindow (w : BitVec 16) (s : State) : State :=
  { s with
    cfg := { s.cfg with window := w }
    tone0 := { s.tone0 with cnt := 0 }
    tone1 := { s.tone1 with cnt := 0 } }

/-- Sets W = 1, THRESHOLD = 1.0, the coefficients and q1 to +0.0 and q2 as given: the next sample 0 then completes both
windows with the magnitudes q2_0² and q2_1². -/
def atDecision (a b : F32) (s : State) : State :=
  { s with
    cfg := { s.cfg with window := 1#16, coef0 := f32Zero, coef1 := f32Zero, threshold := 0x3F800000#32 }
    tone0 := { s.tone0 with cnt := 0, q1 := f32Zero, q2 := a }
    tone1 := { s.tone1 with cnt := 0, q1 := f32Zero, q2 := b } }

/-- Sets BIT_RATE to `rate` at the start of a bit period. -/
def atTick (rate : BitVec 20) (s : State) : State := { s with cfg := { s.cfg with bitRate := rate }, divCnt := 0 }

/-- Sets the FrameDecoder Syncing with the cursor at `n`, an empty buffer, and the release code to `code`. -/
def atCursor (n code : Nat) (s : State) : State :=
  { s with cfg := { s.cfg with releaseCode := code }, syncFlag := true, bitCount := n, buf := clearedBuf s }

/-- `s` with all that makes the very next step perform `i`: an EV operation is driven on the ports; an operation of another
format, which a cycle selects from its state (30_encoding.md R80), gets the state that selects it and a cycle that evaluates
its format, or a step of the FrameDecoder's interface. Assumption log 13. -/
def place (i : Instr) (s : State) : State :=
  match i with
  | .nop => driveCycle false false 0#24 false s
  | .tick => driveCycle false false 0#24 true s
  | .sample x => driveCycle false true x false s
  | .sampleTick x => driveCycle false true x true s
  | .reset => driveCycle true false 0#24 false s
  | .teStep _ x => driveCycle false true x false (atWindow 2#16 s)
  | .teComplete _ x => driveCycle false true x false (atWindow 1#16 s)
  | .sdNone => driveCycle false true 0#24 false (atWindow 2#16 s)
  | .sdSet0 => driveCycle false true 0#24 false (atDecision 0x40000000#32 f32Zero s)
  | .sdSet1 => driveCycle false true 0#24 false (atDecision f32Zero 0x40000000#32 s)
  | .sdHold => driveCycle false true 0#24 false (atDecision f32Zero f32Zero s)
  | .dvIdle => driveCycle false false 0#24 false s
  | .dvCount => driveCycle false false 0#24 true (atTick 1#20 s)
  | .dvWrap => driveCycle false false 0#24 true (atTick 1000000#20 s)
  | .bitNone => driveCycle false false 0#24 false s
  | .bitSample => driveCycle false false 0#24 true (atTick 1000000#20 s)
  | .fdNobit => drive (.fd false false) s
  | .fdIgnore => drive (.fd true false) { s with syncFlag := false }
  | .fdSync => drive (.fd true true) { s with syncFlag := false }
  | .fdStore b => drive (.fd true b) (atCursor 1 s.cfg.releaseCode s)
  | .fdAccept b => drive (.fd true b) (atCursor (8 * s.params.codeBytes) (bitNat b) s)
  | .fdReject b => drive (.fd true b) (atCursor (8 * s.params.codeBytes) (bitNat (!b)) s)
  | .fdOverflow b => drive (.fd true b) (atCursor (8 * s.params.codeBytes + 1) s.cfg.releaseCode s)

/-- `place` for the instruction a numbered word decodes to; a word the decoder refuses is not placed. -/
def placeWord (nbits w : Nat) (s : State) : State :=
  match decodeTableWord nbits w with
  | none => s
  | some i => place i s

end Sys2Proof.Machine
end

