-- ==== Sys2Proof/Machine/Step.lean ====
section
/-! DEFINITION. One step of the machine: one clock cycle (45_cycle.md R200), or one step at the FrameDecoder's interface. -/

namespace Sys2Proof.Machine

/-- Performs what is driven now (`nextStimulus`). -/
def step (s : State) : Host.Outcome State Fault Refusal := respond (nextStimulus s) (takeStimulus s)

/-- `s` with the instruction of a numbered word placed so that the very next step performs it. -/
def State.withFetchWord (s : State) (nbits w : Nat) : State := placeWord nbits w s

end Sys2Proof.Machine
end

