-- ==== Sys2Proof/Machine/Stimulus.lean ====
section
/-! DEFINITION. The stimulus statements of 30_encoding.md R95 and their pseudo-statements (R96). -/

namespace Sys2Proof.Machine

/-- The statements of R95. -/
inductive Stmt where
  | nop
  | tick
  | smp (v : Nat)
  | smpt (v : Nat)
  | rst
  | rstSmp (v : Nat)
  | rstTick
  | rstSmpt (v : Nat)
  /-- `fd 0`, `fd 1` -/
  | fd (b : Bool)
  /-- `fd -` -/
  | fdNone
  deriving DecidableEq, Repr

/-- The sample a statement's number stands for. DEDUCED (assumption log 14): a number of more than 24 bits stands for none, because
no `sample` port of 00_scope.md R6 carries it (45_cycle.md R209). -/
def sampleOf (v : Nat) : Option Sample := if v < 2 ^ 24 then some (.ofNat 24 v) else none

/-- A top-level statement is one clock cycle under the `.cfg` line's configuration; an `fd` statement is one FrameDecoder step
(R95). What is marked "don't care" there is 0, and the number of a reset statement, which no rule reads, its low 24 bits. `none`
where the spec gives the statement no meaning: `smp v` and `smpt v` with no such sample (log 14). -/
def stimulusOf (c : Cfg) : Stmt → Option Stimulus
  | .nop => some (.cycle ⟨false, false, 0#24, false, c⟩)
  | .tick => some (.cycle ⟨false, false, 0#24, true, c⟩)
  | .smp v => (sampleOf v).map fun x => .cycle ⟨false, true, x, false, c⟩
  | .smpt v => (sampleOf v).map fun x => .cycle ⟨false, true, x, true, c⟩
  | .rst => some (.cycle ⟨true, false, 0#24, false, c⟩)
  | .rstSmp v => some (.cycle ⟨true, true, .ofNat 24 v, false, c⟩)
  | .rstTick => some (.cycle ⟨true, false, 0#24, true, c⟩)
  | .rstSmpt v => some (.cycle ⟨true, true, .ofNat 24 v, true, c⟩)
  | .fd b => some (.fd true b)
  | .fdNone => some (.fd false false)

/-- The stimuli of a program, where every statement has a meaning. -/
def stimuliOf (c : Cfg) : List Stmt → Option (List Stimulus)
  | [] => some []
  | q :: rest =>
    match stimulusOf c q, stimuliOf c rest with
    | some a, some l => some (a :: l)
    | _, _ => none

/-- `nop*n` -/
def nops (n : Nat) : List Stmt := List.replicate n .nop

/-- `tick*n` -/
def ticks (n : Nat) : List Stmt := List.replicate n .tick

/-- `win v1 ... vW` -/
def win (vs : List Nat) : List Stmt := vs.map .smp

/-- `wint v1 ... vW` -/
def wint (vs : List Nat) : List Stmt := vs.map .smpt

/-- `fdbits d1...dn` -/
def fdbits (ds : List Bool) : List Stmt := ds.map .fd

/-- The bits of a byte from bit 7 down to bit 0. -/
def byteBits (v : Byte) : List Bool := (List.range 8).map fun i => v.getLsbD (7 - i)

/-- `fdbyte 0xHH` -/
def fdbyte (v : Byte) : List Stmt := fdbits (byteBits v)

/-- `frame 0x...`: `fd 1`, then `fdbyte` of each code byte from byte 0 on. -/
def frame (code : List Byte) : List Stmt := .fd true :: code.flatMap fdbyte

/-- A block of the given parameters right after a reset under the given configuration, with the statements driven from then
on: what a program of R95 runs on. `none` for a program with a statement the spec gives no meaning (log 14). -/
def booted (p : Params) (c : Cfg) (prog : List Stmt) : Option State :=
  (stimuliOf c prog).map fun l => { State.resetFor p c with inputs := l }

end Sys2Proof.Machine
end

