-- ==== Sys2Proof/Safety.lean ====
section
/-! DEFINITION. What a safe state is: the invariants of 10_state.md and 43_frame_decoder.md, in the terms claims use. -/

namespace Sys2Proof.Machine

/-- The frame buffer has its L bytes (10_state.md R32). -/
abbrev BufOk (s : State) : Prop := s.buf.length = s.params.codeBytes

/-- 43_frame_decoder.md R171 (a), (b): Idle has an empty cursor and an empty buffer, Syncing has 1 ≤ bit_count ≤ 8L. -/
abbrev FrameOk (s : State) : Prop :=
  BufOk s ∧
  (s.syncFlag = false → s.bitCount = 0 ∧ s.buf = clearedBuf s) ∧
  (s.syncFlag = true → 1 ≤ s.bitCount ∧ s.bitCount ≤ 8 * s.params.codeBytes)

/-- The counters' invariants of 10_state.md's summary. -/
abbrev CountersOk (s : State) : Prop :=
  s.tone0.cnt = s.tone1.cnt ∧ s.tone0.cnt.toNat < s.cfg.window.toNat ∧ s.divCnt.toNat < bitPeriod s.cfg

/-- The entry state of 70_reset_and_hazards.md R242, in what later cycles read of it: a state that follows a reset cycle is at the
start of a window and of a bit period, Idle, with the level indeterminate. -/
abbrev EntryOk (s : State) : Prop :=
  s.cfgOpen = true → s.tone0.cnt = 0 ∧ s.divCnt = 0 ∧ s.syncFlag = false ∧ s.symLevel = false ∧ s.symValid = false

/-- `activate` = 1 exactly when `outcome` = 01 (30_encoding.md R89), `outcome` is never 11 (R171 (c)), and a level of 1 has been
decided (10_state.md R28). -/
abbrev StrobesOk (s : State) : Prop :=
  (s.activate = true ↔ s.outcome = 0b01#2) ∧ s.outcome ≠ 0b11#2 ∧ (s.symLevel = true → s.symValid = true)

/-- Everything the spec says of a state reachable from reset, under the legal configuration that every run has (30_encoding.md R91). -/
abbrev State.Inv (s : State) : Prop :=
  legalConfig s = true ∧ CountersOk s ∧ EntryOk s ∧ FrameOk s ∧ StrobesOk s

/-- The ports the host may drive: a legal configuration, kept while rst = 0, and samples its wires carry (45_cycle.md R209). -/
abbrev HostOk (s : State) : Stimulus → Prop
  | .cycle p =>
    cfgHeld p s = true ∧ cfgLegal s.params p.cfg = true ∧
      (p.rst = false → p.sampleValid = true → sampleFits s.params p.sample = true)
  | .fd _ _ => legalConfig s = true

/-- `step` answers a state that meets `q`. -/
abbrev NextWith (r : Result) (q : State → Prop) : Prop := ∃ t, r = .next t ∧ q t

end Sys2Proof.Machine
end

