-- ==== Sys2Proof/Certificates/Slice0/Obligations.lean ====
section
/-! DEFINITION. The statements for the provers, each from the spec's rules. -/

open Sys2Proof Sys2Proof.Machine

/-! ### Encoding (30_encoding.md) -/

/-- Every operation, with every operand at every value, is what the decoder reads from its word (R81 to R86). -/
def Obligations.DecodeOfEncodeIsIdentity : Prop := ∀ i : Instr, decode (encode i) = .ok i

/-- What the decoder answers is an operation whose row has the word's width and pattern; and a row of priority 2 is answered only
where no row of priority 1 matches (R81 to R87). -/
def Obligations.DecodedWordHasItsRowsPattern : Prop :=
  ∀ (w : SelectWord) (i : Instr), decode w = .ok i →
    w.width = i.row.width ∧ i.row.hits w.bits = true ∧
    (i.row.priority = 2 → ∀ o : SdOp, o.toInstr.row.priority = 1 → o.toInstr.row.hits w.bits = false)

/-- R87: every vector R92 does not name selects an operation, and among the rows of its format and one priority at most one
matches it. The rows of format EV are those of width 3. -/
def Obligations.EveryReachableVectorMatchesOneRow : Prop :=
  (∀ (v : BitVec 3) (x : Sample), (∃ i, decodeEv v x = .ok i) ∧
    ∀ i j : Instr, i.row.width = 3 → j.row.width = 3 → i.row.hits v.toNat = true → j.row.hits v.toNat = true → i.row = j.row) ∧
  (∀ v : BitVec 1, (∃ o, decodeTe v = .ok o) ∧
    ∀ (a b : TeOp) (k : Tone) (x : Sample), (a.toInstr k x).row.hits v.toNat = true →
      (b.toInstr k x).row.hits v.toNat = true → a = b) ∧
  (∀ v : BitVec 2, (∃ o, decodeDv v = .ok o) ∧
    ∀ a b : DvOp, a.toInstr.row.hits v.toNat = true → b.toInstr.row.hits v.toNat = true → a = b) ∧
  (∀ v : BitVec 1, (∃ o, decodeBs v = .ok o) ∧
    ∀ a b : BsOp, a.toInstr.row.hits v.toNat = true → b.toInstr.row.hits v.toNat = true → a = b) ∧
  (∀ v : BitVec 5, ¬ (v.getLsbD 3 = true ∧ v.getLsbD 2 = true) → ¬ (v.getLsbD 1 = true ∧ v.getLsbD 0 = true) →
    (∃ o, decodeSd v = .ok o) ∧
    ∀ a b : SdOp, a.toInstr.row.hits v.toNat = true → b.toInstr.row.hits v.toNat = true →
      a.toInstr.row.priority = b.toInstr.row.priority → a = b) ∧
  (∀ v : BitVec 6, ¬ (v.getLsbD 5 = true ∧ v.getLsbD 4 = true ∧ v.getLsbD 2 = true ∧ v.getLsbD 1 = true) →
    (∃ o, decodeFd v = .ok o) ∧
    ∀ a b : FdOp, a.toInstr.row.hits v.toNat = true → b.toInstr.row.hits v.toNat = true → a.toInstr.row = b.toInstr.row)

/-- R92: the decoder refuses an SD vector with gt_k = lt_k = 1 and an FD vector `11x11x`, and the block forms neither. -/
def Obligations.UnreachableVectorsAreRefusedAndNeverFormed : Prop :=
  (∀ v : BitVec 5, (v.getLsbD 3 = true ∧ v.getLsbD 2 = true) ∨ (v.getLsbD 1 = true ∧ v.getLsbD 0 = true) →
    decodeSd v = .error .gtAndLt) ∧
  (∀ v : BitVec 6, v.getLsbD 5 = true → v.getLsbD 4 = true → v.getLsbD 2 = true → v.getLsbD 1 = true →
    decodeFd v = .error .endAndOver) ∧
  (∀ (m0 m1 : Option F32) (c : F32),
    ¬ ((sdVector m0 m1 c).getLsbD 3 = true ∧ (sdVector m0 m1 c).getLsbD 2 = true) ∧
    ¬ ((sdVector m0 m1 c).getLsbD 1 = true ∧ (sdVector m0 m1 c).getLsbD 0 = true)) ∧
  (∀ (s : State) (fire b : Bool), ¬ ((fdVector s fire b).getLsbD 2 = true ∧ (fdVector s fire b).getLsbD 1 = true))

/-- Ten words written out from the patterns of R81 to R86 decode to the operations they stand for, and one that R92 names is
refused. -/
def Obligations.WordsOfTheTablesDecode : Prop :=
  decode (.ev 0b011#3 0xFF#24) = .ok (.sampleTick 0xFF#24) ∧ decode (.ev 0b111#3 8#24) = .ok .reset ∧
  decode (.te 0b1#1 .t1 4#24) = .ok (.teComplete .t1 4#24) ∧ decode (.sd 0b11101#5) = .error .gtAndLt ∧
  decode (.sd 0b11001#5) = .ok .sdSet0 ∧ decode (.sd 0b10110#5) = .ok .sdSet1 ∧ decode (.sd 0b11010#5) = .ok .sdHold ∧
  decode (.dv 0b01#2) = .ok .dvIdle ∧ decode (.bs 0b1#1) = .ok .bitSample ∧
  decode (.fd 0b111101#6) = .ok (.fdAccept true) ∧ decode (.fd 0b110010#6) = .ok (.fdOverflow false)

/-! ### The binary32 primitives (00_scope.md R11) -/

/-- R11, `f32_add` and `f32_sub`: the exact sum or difference of two finite operands is rounded to the nearest binary32, a tie to
the pattern with an even fraction, and from half an ulp past the largest finite value on the result is an infinity; an exact zero
is -0.0 only of two negative operands, and of -0.0 less +0.0. Magnitudes count units of 2^-149. -/
def Obligations.AdditionRoundsToNearestEven : Prop :=
  ∀ (n : Nat) (a b : F32) (s t : Bool) (m l : Nat), classify a = .finite s m → classify b = .finite t l →
    let rounded := fun (r : F32) (v : Int) =>
      (v.natAbs < (2 ^ 25 - 1) * 2 ^ 252 → ∃ u p, classify r = .finite u p ∧
        ∀ (y : F32) (w : Bool) (q : Nat), classify y = .finite w q →
          (signed u p - v).natAbs ≤ (signed w q - v).natAbs ∧
          ((signed u p - v).natAbs = (signed w q - v).natAbs → signed w q ≠ signed u p → r.getLsbD 0 = false)) ∧
      ((2 ^ 25 - 1) * 2 ^ 252 ≤ v.natAbs → classify r = .inf (decide (v < 0)))
    rounded (f32Add n a b) (signed s m + signed t l) ∧
    (signed s m + signed t l = 0 → f32Add n a b = if s && t then 0x80000000#32 else 0x00000000#32) ∧
    rounded (f32Sub n a b) (signed s m - signed t l) ∧
    (signed s m - signed t l = 0 → f32Sub n a b = if s && !t then 0x80000000#32 else 0x00000000#32)

/-- R11, `f32_mul`: the sign is the exclusive or of the signs, and the exact product, which counts units of 2^-298, is rounded to
the nearest binary32, a tie to the even fraction, or to infinity. -/
def Obligations.MultiplicationRoundsToNearestEven : Prop :=
  ∀ (n : Nat) (a b : F32) (s t : Bool) (m l : Nat), classify a = .finite s m → classify b = .finite t l →
    (m * l < (2 ^ 25 - 1) * 2 ^ 252 * 2 ^ 149 → ∃ r, classify (f32Mul n a b) = .finite (s != t) r ∧
      ∀ (y : F32) (w : Bool) (q : Nat), classify y = .finite w q →
        ((r * 2 ^ 149 : Nat) - (m * l : Nat) : Int).natAbs ≤ ((q * 2 ^ 149 : Nat) - (m * l : Nat) : Int).natAbs ∧
        (((r * 2 ^ 149 : Nat) - (m * l : Nat) : Int).natAbs = ((q * 2 ^ 149 : Nat) - (m * l : Nat) : Int).natAbs →
          q ≠ r → (f32Mul n a b).getLsbD 0 = false)) ∧
    ((2 ^ 25 - 1) * 2 ^ 252 * 2 ^ 149 ≤ m * l → classify (f32Mul n a b) = .inf (s != t))

/-- R11: exactly when a sum, a difference or a product is a NaN, and that every NaN result is a quiet NaN (bit 22), whatever is
drawn. -/
def Obligations.NaNResultsAndTheirQuietBit : Prop :=
  ∀ (n : Nat) (a b : F32),
    (isNaN (f32Add n a b) = true ↔
      isNaN a = true ∨ isNaN b = true ∨ ∃ s, classify a = .inf s ∧ classify b = .inf (!s)) ∧
    (isNaN (f32Sub n a b) = true ↔
      isNaN a = true ∨ isNaN b = true ∨ ∃ s, classify a = .inf s ∧ classify b = .inf s) ∧
    (isNaN (f32Mul n a b) = true ↔
      isNaN a = true ∨ isNaN b = true ∨ ∃ s t, (classify a = .inf s ∧ classify b = .finite t 0) ∨
        (classify a = .finite t 0 ∧ classify b = .inf s)) ∧
    (isNaN (f32Add n a b) = true → (f32Add n a b).getLsbD 22 = true) ∧
    (isNaN (f32Sub n a b) = true → (f32Sub n a b).getLsbD 22 = true) ∧
    (isNaN (f32Mul n a b) = true → (f32Mul n a b).getLsbD 22 = true)

/-- R11: the comparisons are false on a NaN, transitive, never both true, follow the values of finite operands (so +0.0 and -0.0
compare equal), and put every finite value between the infinities. -/
def Obligations.ComparisonsAreOrdered : Prop :=
  (∀ a b, isNaN a = true ∨ isNaN b = true → f32Gt a b = false ∧ f32Lt a b = false) ∧
  (∀ a b c, f32Gt a b = true → f32Gt b c = true → f32Gt a c = true) ∧
  (∀ a b, ¬ (f32Gt a b = true ∧ f32Lt a b = true)) ∧
  (∀ a b s m t l, classify a = .finite s m → classify b = .finite t l →
    (f32Gt a b = true ↔ signed t l < signed s m) ∧ (f32Lt a b = true ↔ signed s m < signed t l)) ∧
  (∀ a s m, classify a = .finite s m →
    f32Gt 0x7F800000#32 a = true ∧ f32Lt 0xFF800000#32 a = true) ∧
  f32Gt 0x00000000#32 0x80000000#32 = false ∧ f32Lt 0x00000000#32 0x80000000#32 = false

/-- R11, R88: the conversion of a sample is exact. -/
def Obligations.SampleConversionIsExact : Prop :=
  ∀ x : Sample, classify (u2f x) = .finite false (x.toNat * 2 ^ 149)

/-! ### ToneEnergyEstimator (40_tone_estimator.md) -/

/-- R101: TE_STEP of tone k, with its coefficient COEFk (R7, R24), writes v = x + c·q1 - q2 to q0 and q1, the old q1 to q2, and
cnt + 1, and nothing else; it is what format TE selects where cnt_k + 1 ≠ W. Where cnt_k + 1 does not fit in 16 bits, which no run
reaches, the rule states no count: then only the count is open (the model's choice, assumption log 8). -/
def Obligations.TeStepAdvancesTheFilter : Prop :=
  ∀ (s : State) (x : Sample), legalConfig s = true →
    let advanced := fun (t : ToneState) (c : F32) (n : BitVec 16) =>
      let v := f32Sub (s.draw + 2) (f32Add (s.draw + 1) (u2f x) (f32Mul s.draw c t.q1)) t.q2
      (⟨v, v, t.q1, n, t.mag⟩ : ToneState)
    (∃ n, (s.tone0.cnt.toNat + 1 < 2 ^ 16 → n.toNat = s.tone0.cnt.toNat + 1) ∧
      exec (.teStep .t0 x) s = .next { s with tone0 := advanced s.tone0 s.cfg.coef0 n, draw := s.draw + 3 }) ∧
    (∃ n, (s.tone1.cnt.toNat + 1 < 2 ^ 16 → n.toNat = s.tone1.cnt.toNat + 1) ∧
      exec (.teStep .t1 x) s = .next { s with tone1 := advanced s.tone1 s.cfg.coef1 n, draw := s.draw + 3 }) ∧
    (decodeTe (teVector s .t0) = .ok .step ↔ s.tone0.cnt.toNat + 1 ≠ s.cfg.window.toNat) ∧
    (decodeTe (teVector s .t1) = .ok .step ↔ s.tone1.cnt.toNat + 1 ≠ s.cfg.window.toNat)

/-- R102: TE_COMPLETE of tone k, with its coefficient COEFk (R7, R24), makes the same advance, writes the magnitude
n1·n1 + n2·n2 - c·n1·n2 of the advanced filter, keeps v in q0, clears q1, q2 and cnt, and writes nothing else; it is what format
TE selects where cnt_k + 1 = W. -/
def Obligations.TeCompleteFinalisesTheWindow : Prop :=
  ∀ (s : State) (x : Sample), legalConfig s = true →
    let d := s.draw
    let completed := fun (t : ToneState) (c : F32) =>
      let v := f32Sub (d + 2) (f32Add (d + 1) (u2f x) (f32Mul d c t.q1)) t.q2
      let m := f32Sub (d + 8) (f32Add (d + 5) (f32Mul (d + 3) v v) (f32Mul (d + 4) t.q1 t.q1))
        (f32Mul (d + 7) (f32Mul (d + 6) c v) t.q1)
      (⟨v, 0x00000000#32, 0x00000000#32, 0, m⟩ : ToneState)
    exec (.teComplete .t0 x) s = .next { s with tone0 := completed s.tone0 s.cfg.coef0, draw := d + 9 } ∧
    exec (.teComplete .t1 x) s = .next { s with tone1 := completed s.tone1 s.cfg.coef1, draw := d + 9 } ∧
    (decodeTe (teVector s .t0) = .ok .complete ↔ s.tone0.cnt.toNat + 1 = s.cfg.window.toNat) ∧
    (decodeTe (teVector s .t1) = .ok .complete ↔ s.tone1.cnt.toNat + 1 = s.cfg.window.toNat)

/-- R120: a SAMPLE cycle performs, with the same sample, the TE operation of each tone that R82 selects; neither tone reads or
writes the other's registers. -/
def Obligations.SampleUpdatesBothTones : Prop :=
  ∀ (s : State) (x : Sample), legalConfig s = true →
    let op := fun k : Tone =>
      if (s.tone k).cnt.toNat + 1 = s.cfg.window.toNat then Instr.teComplete k x else Instr.teStep k x
    ∃ a b t, exec (op .t0) s = .next a ∧ exec (op .t1) a = .next b ∧ exec (.sample x) s = .next t ∧
      t.tone0 = b.tone0 ∧ t.tone1 = b.tone1 ∧ b.tone0 = a.tone0 ∧ a.tone1 = s.tone1

/-- R25, R106: within its range a window counter counts the samples modulo W. -/
def Obligations.WindowCounterCountsModuloW : Prop :=
  ∀ (s : State) (x : Sample), legalConfig s = true →
    s.tone0.cnt.toNat < s.cfg.window.toNat → s.tone1.cnt.toNat < s.cfg.window.toNat →
    ∃ t, exec (.sample x) s = .next t ∧ t.tone0.cnt.toNat = (s.tone0.cnt.toNat + 1) % s.cfg.window.toNat ∧
      t.tone1.cnt.toNat = (s.tone1.cnt.toNat + 1) % s.cfg.window.toNat

/-- R102's remark on W = 1, where it does follow: a finite coefficient whose product with the sample does not overflow gives the
square of the sample. -/
def Obligations.WindowOfOneSquaresTheSample : Prop :=
  ∀ (s : State) (k : Tone) (x : Sample), legalConfig s = true → (s.tone k).q1 = f32Zero → (s.tone k).q2 = f32Zero →
    (∃ u r, classify (s.coef k) = .finite u r) → (∃ u r, classify (f32Mul 0 (s.coef k) (u2f x)) = .finite u r) →
    ∃ t, exec (.teComplete k x) s = .next t ∧ (t.tone k).mag = f32Mul 0 (u2f x) (u2f x)

/-- R102's remark on W = 1 as it stands, for every finite coefficient. EXPECTED TO FAIL: where COEFk·x overflows, the pseudocode of
the same rule multiplies an infinity by +0.0. The model follows the pseudocode (assumption log 11). -/
def Obligations.WindowOfOneSquaresForEveryFiniteCoefficient : Prop :=
  ∀ (s : State) (k : Tone) (x : Sample), legalConfig s = true → (s.tone k).q1 = f32Zero → (s.tone k).q2 = f32Zero →
    (∃ u r, classify (s.coef k) = .finite u r) →
    ∃ t, exec (.teComplete k x) s = .next t ∧ (t.tone k).mag = f32Mul 0 (u2f x) (u2f x)

/-! ### SymbolDetector (41_symbol_detector.md) -/

/-- R122: SD_NONE writes `win_code` = 00 and nothing else; any vector with done = 0 selects it. -/
def Obligations.SdNoneReportsNoWindow : Prop :=
  (∀ s : State, legalConfig s = true → exec .sdNone s = .next { s with winCode := 0b00#2 }) ∧
  ∀ (m0 m1 : Option F32) (c : F32), decodeSd (sdVector m0 m1 c) = .ok .none ↔ m0 = none ∨ m1 = none

/-- R123: SD_SET0 decides level 0; it is selected exactly at m0 > T and m1 < T. -/
def Obligations.SdSet0DecidesLevelZero : Prop :=
  (∀ s : State, legalConfig s = true →
    exec .sdSet0 s = .next { s with symLevel := false, symValid := true, winCode := 0b01#2 }) ∧
  ∀ m0 m1 c : F32,
    (decodeSd (sdVector (some m0) (some m1) c) = .ok .set0 ↔ f32Gt m0 c = true ∧ f32Lt m1 c = true) ∧
    (isNaN m0 = true ∨ isNaN m1 = true ∨ m0 = c ∨ m1 = c → decodeSd (sdVector (some m0) (some m1) c) ≠ .ok .set0)

/-- R124: SD_SET1 decides level 1; it is selected exactly at m0 < T and m1 > T. -/
def Obligations.SdSet1DecidesLevelOne : Prop :=
  (∀ s : State, legalConfig s = true →
    exec .sdSet1 s = .next { s with symLevel := true, symValid := true, winCode := 0b10#2 }) ∧
  ∀ m0 m1 c : F32,
    (decodeSd (sdVector (some m0) (some m1) c) = .ok .set1 ↔ f32Lt m0 c = true ∧ f32Gt m1 c = true) ∧
    (isNaN m0 = true ∨ isNaN m1 = true ∨ m0 = c ∨ m1 = c → decodeSd (sdVector (some m0) (some m1) c) ≠ .ok .set1)

/-- R125: SD_HOLD writes `win_code` = 11 and nothing else; it is selected where a window completed and neither SD_SET0 nor SD_SET1
is, so also where a magnitude or T is a NaN or a magnitude equals T. -/
def Obligations.SdHoldKeepsTheLevel : Prop :=
  (∀ s : State, legalConfig s = true → exec .sdHold s = .next { s with winCode := 0b11#2 }) ∧
  ∀ m0 m1 c : F32,
    (decodeSd (sdVector (some m0) (some m1) c) = .ok .hold ↔
      ¬ (f32Gt m0 c = true ∧ f32Lt m1 c = true) ∧ ¬ (f32Lt m0 c = true ∧ f32Gt m1 c = true)) ∧
    (isNaN m0 = true ∨ isNaN m1 = true ∨ isNaN c = true ∨ m0 = c ∨ m1 = c →
      decodeSd (sdVector (some m0) (some m1) c) = .ok .hold)

/-- R121, R123 to R125: in the cycle that completes a window the level follows the magnitudes this cycle computes and writes. -/
def Obligations.CompletedWindowDecidesTheLevel : Prop :=
  ∀ (s : State) (x : Sample), legalConfig s = true →
    s.tone0.cnt.toNat + 1 = s.cfg.window.toNat → s.tone1.cnt.toNat + 1 = s.cfg.window.toNat →
    ∃ t, exec (.sample x) s = .next t ∧
      let set0 := f32Gt t.tone0.mag s.cfg.threshold && f32Lt t.tone1.mag s.cfg.threshold
      let set1 := f32Lt t.tone0.mag s.cfg.threshold && f32Gt t.tone1.mag s.cfg.threshold
      t.symLevel = (if set0 then false else if set1 then true else s.symLevel) ∧
      t.symValid = (if set0 || set1 then true else s.symValid) ∧
      t.winCode = (if set0 then 0b01#2 else if set1 then 0b10#2 else 0b11#2)

/-- R125: with W = 1 every window ends in SD_HOLD, whatever the coefficients, THRESHOLD and the sample. -/
def Obligations.WindowOfOneAlwaysHolds : Prop :=
  ∀ (s : State) (x : Sample), legalConfig s = true → s.cfg.window = 1#16 → s.tone0.cnt = 0 → s.tone1.cnt = 0 →
    s.tone0.q1 = f32Zero → s.tone0.q2 = f32Zero → s.tone1.q1 = f32Zero → s.tone1.q2 = f32Zero →
    ∃ t, exec (.sample x) s = .next t ∧ t.winCode = 0b11#2 ∧ t.symLevel = s.symLevel ∧ t.symValid = s.symValid

/-! ### Bit-rate divider and BitSampler (42_bit_sampler.md) -/

/-- R141 to R143: what the three divider operations write, and when format DV selects each. Where div_cnt + 1 does not fit in 20
bits, which no run reaches, R142 states no count: then only the count is open (the model's choice, assumption log 8). -/
def Obligations.DividerCountsTicksAndWraps : Prop :=
  ∀ s : State, legalConfig s = true →
    exec .dvIdle s = .next s ∧
    (∃ n, (s.divCnt.toNat + 1 < 2 ^ 20 → n.toNat = s.divCnt.toNat + 1) ∧ exec .dvCount s = .next { s with divCnt := n }) ∧
    exec .dvWrap s = .next { s with divCnt := 0 } ∧
    ∀ u : Bool,
      (decodeDv (dvVector s u) = .ok .idle ↔ u = false) ∧
      (decodeDv (dvVector s u) = .ok .count ↔ u = true ∧ s.divCnt.toNat + 1 ≠ 1000000 / s.cfg.bitRate.toNat) ∧
      (decodeDv (dvVector s u) = .ok .wrap ↔ u = true ∧ s.divCnt.toNat + 1 = 1000000 / s.cfg.bitRate.toNat)

/-- R140: a legal BIT_RATE gives 1 ≤ P ≤ 1,000,000, so P fits in 20 bits, with the quotient truncated; and the rule's examples. -/
def Obligations.BitPeriodIsTheTruncatedQuotient : Prop :=
  (∀ (p : Params) (c : Cfg), cfgLegal p c = true →
    1 ≤ bitPeriod c ∧ bitPeriod c ≤ 1000000 ∧ bitPeriod c < 2 ^ 20 ∧
    bitPeriod c * c.bitRate.toNat ≤ 1000000 ∧ 1000000 < (bitPeriod c + 1) * c.bitRate.toNat) ∧
  ∀ c : Cfg, (c.bitRate = 1200#20 → bitPeriod c = 833) ∧ (c.bitRate = 300000#20 → bitPeriod c = 3)

/-- R144, R85: BIT_SAMPLE hands on the level and raises `bit_valid`; BIT_NONE clears the sampler's strobes; nothing else. R85 gives
BIT_NONE nothing but R204's strobe clear, which belongs to the cycle; that BIT_NONE performed alone clears `bit_valid` and `bit_out`,
and that both operations performed alone keep the other sub-blocks' strobes, is the model's choice (DESIGN CHOICE, assumption
log 7). -/
def Obligations.BitSamplerReadsTheLevel : Prop :=
  ∀ s : State, legalConfig s = true →
    exec .bitSample s = .next { s with bitValid := true, bitOut := s.symLevel } ∧
    exec .bitNone s = .next { s with bitValid := false, bitOut := false }

/-- R68: a bit that fires in the cycle of a window decision carries the level from before the decision. -/
def Obligations.BitReadsTheStartOfCycleLevel : Prop :=
  ∀ (s : State) (x : Sample), legalConfig s = true → s.divCnt.toNat + 1 = bitPeriod s.cfg →
    ∃ t, exec (.sampleTick x) s = .next t ∧ t.bitValid = true ∧ t.bitOut = s.symLevel ∧
      (s.syncFlag = false → (t.syncFlag = s.symLevel))

/-- R143, R253: from the start of a bit period, so also from the entry state after reset (R242), ticks 1 to P - 1 only count, and the
P-th fires a bit that carries the level. -/
def Obligations.BitFiresOnEveryPthTick : Prop :=
  ∀ s : State, legalConfig s = true → s.divCnt = 0 →
    let ticking := { s with inputs := List.replicate (bitPeriod s.cfg) (.cycle ⟨false, false, 0#24, true, s.cfg⟩) }
    (∀ n, 1 ≤ n → n < bitPeriod s.cfg →
      ∃ t, Host.Core.run core n ticking = .next t ∧ t.divCnt.toNat = n ∧ t.bitValid = false ∧ t.outcome = 0b00#2) ∧
    ∃ t, Host.Core.run core (bitPeriod s.cfg) ticking = .next t ∧ t.divCnt = 0 ∧ t.bitValid = true ∧ t.bitOut = s.symLevel

/-! ### The frame buffer (20_memory.md) and the FrameDecoder (43_frame_decoder.md) -/

/-- R61: payload bit j is bit 7 - (j mod 8) of byte j div 8; writing it assigns b, a 0 as well as a 1, and every other bit of
every byte keeps its value. -/
def Obligations.BufWriteAssignsOneBit : Prop :=
  ∀ (buf : List Byte) (j : Nat) (b : Bool), j < 8 * buf.length →
    bufRead buf j = (buf.getD (j / 8) 0#8).getLsbD (7 - j % 8) ∧
    (bufWrite buf j b).length = buf.length ∧
    ∀ i k, k < 8 → ((bufWrite buf j b).getD i 0#8).getLsbD k =
      if i = j / 8 ∧ k = 7 - j % 8 then b else (buf.getD i 0#8).getLsbD k

/-- R64: no operation changes the length of the buffer, in any state, and in a state of R171 the payload index of a stored bit is in
the buffer. -/
def Obligations.BufferIsNeverOverrun : Prop :=
  (∀ (i : Instr) (s t : State), exec i s = .next t → BufOk s → BufOk t) ∧
  ∀ s : State, FrameOk s → s.syncFlag = true → payloadIndex s < 8 * s.params.codeBytes

/-- R162 under R90: the code matcher compares all 8L payload bits, payload bit j with bit 8L-1-j of `cfg_release_code`. -/
def Obligations.CodeMatcherComparesEveryPayloadBit : Prop :=
  ∀ (s : State) (b : Bool), BufOk s →
    (matchFlag s b = true ↔ ∀ j, j < 8 * s.params.codeBytes →
      bufRead (nextBuf s b) j = s.cfg.releaseCode.testBit (8 * s.params.codeBytes - 1 - j))

/-- R164, R165: FD_NOBIT and FD_IGNORE write nothing but the decoder's strobes, which they clear; FD_NOBIT is what format FD
selects without a bit, FD_IGNORE on a 0 bit while Idle. The clear is R204's, which an operation performed alone carries out for its
sub-block (the model's choice, assumption log 7). -/
def Obligations.FdNobitAndIgnoreChangeNothing : Prop :=
  (∀ s : State, legalConfig s = true →
    exec .fdNobit s = .next { s with outcome := 0b00#2, activate := false } ∧
    exec .fdIgnore s = .next { s with outcome := 0b00#2, activate := false }) ∧
  ∀ (s : State) (fire b : Bool),
    (decodeFd (fdVector s fire b) = .ok .nobit ↔ fire = false) ∧
    (decodeFd (fdVector s fire b) = .ok .ignore ↔ fire = true ∧ s.syncFlag = false ∧ b = false)

/-- R166: FD_SYNC starts a frame: Syncing, an empty buffer, the cursor at 1; it is what any 1 bit while Idle selects. Performed
alone it clears the decoder's strobes, as R204 does in its cycle (the model's choice, assumption log 7). -/
def Obligations.FdSyncStartsAFrame : Prop :=
  (∀ s : State, legalConfig s = true →
    exec .fdSync s = .next { s with
      outcome := 0b00#2, activate := false, syncFlag := true, bitCount := 1,
      buf := List.replicate s.params.codeBytes 0x00#8 }) ∧
  ∀ (s : State) (fire b : Bool),
    decodeFd (fdVector s fire b) = .ok .sync ↔ fire = true ∧ s.syncFlag = false ∧ b = true

/-- R161, R167: FD_STORE writes b at payload bit j = bit_count - 1, or nowhere for j ≥ 8L, and advances the cursor; it is selected
while the bit does not end the frame. Where bit_count = 0, which no run reaches, the rule states no j: then only the buffer is
open (the model's choice, assumption log 9); where bit_count + 1 has no place in BC_BITS bits, only the cursor (log 8). Performed
alone it clears the decoder's strobes, as R204 does in its cycle (log 7). -/
def Obligations.FdStoreWritesThePayloadBit : Prop :=
  ∀ (s : State) (b : Bool), legalConfig s = true →
    (∀ j, s.bitCount = j + 1 → ∃ n, (s.bitCount + 1 < 2 ^ bcBits s.params.codeBytes → n = s.bitCount + 1) ∧
      exec (.fdStore b) s = .next { s with
        outcome := 0b00#2, activate := false, bitCount := n,
        buf := if j < 8 * s.params.codeBytes then bufWrite s.buf j b else s.buf }) ∧
    (s.bitCount = 0 → ∃ buf, buf.length = s.buf.length ∧
      exec (.fdStore b) s = .next { s with outcome := 0b00#2, activate := false, bitCount := 1, buf := buf }) ∧
    ∀ fire : Bool, decodeFd (fdVector s fire b) = .ok (.store b) ↔
      fire = true ∧ s.syncFlag = true ∧ s.bitCount + 1 < 8 * s.params.codeBytes + 1

/-- R168, R169, R170: the three terminal operations write their outcome, `activate` on Accept alone, and clear the frame. The last
bit of a frame selects Accept where the buffer with it is the release code, else Reject; a cursor past the frame, Overflow (R163).
`activate` = 0 after Reject and Overflow is R204, which the operation performed alone carries out (the model's choice, log 7). -/
def Obligations.TerminalOperationsReportAndClear : Prop :=
  ∀ (s : State) (b : Bool), legalConfig s = true →
    let idle := { s with syncFlag := false, bitCount := 0, buf := List.replicate s.params.codeBytes 0x00#8 }
    exec (.fdAccept b) s = .next { idle with outcome := 0b01#2, activate := true } ∧
    exec (.fdReject b) s = .next { idle with outcome := 0b10#2, activate := false } ∧
    exec (.fdOverflow b) s = .next { idle with outcome := 0b11#2, activate := false } ∧
    ∀ fire : Bool,
      (decodeFd (fdVector s fire b) = .ok (.accept b) ↔
        fire = true ∧ s.syncFlag = true ∧ s.bitCount = 8 * s.params.codeBytes ∧ nextBuf s b = rcBytes s) ∧
      (decodeFd (fdVector s fire b) = .ok (.reject b) ↔
        fire = true ∧ s.syncFlag = true ∧ s.bitCount = 8 * s.params.codeBytes ∧ nextBuf s b ≠ rcBytes s) ∧
      (decodeFd (fdVector s fire b) = .ok (.overflow b) ↔
        fire = true ∧ s.syncFlag = true ∧ 8 * s.params.codeBytes + 1 ≤ s.bitCount)

/-- R163: a step at the FrameDecoder's interface performs the operation of the transition table. -/
def Obligations.FrameDecoderFollowsItsTransitions : Prop :=
  ∀ (s : State) (fire b : Bool) (rest : List Stimulus), legalConfig s = true → s.inputs = .fd fire b :: rest →
    let s' := { s with inputs := rest, cfgOpen := false }
    (fire = false → step s = exec .fdNobit s') ∧
    (fire = true → s.syncFlag = false → b = false → step s = exec .fdIgnore s') ∧
    (fire = true → s.syncFlag = false → b = true → step s = exec .fdSync s') ∧
    (fire = true → s.syncFlag = true → s.bitCount + 1 < 8 * s.params.codeBytes + 1 → step s = exec (.fdStore b) s') ∧
    (fire = true → s.syncFlag = true → s.bitCount + 1 = 8 * s.params.codeBytes + 1 →
      step s = if nextBuf s b = rcBytes s then exec (.fdAccept b) s' else exec (.fdReject b) s') ∧
    (fire = true → s.syncFlag = true → 8 * s.params.codeBytes + 1 < s.bitCount + 1 → step s = exec (.fdOverflow b) s')

/-- R172, R174: from Idle, a sync bit and 8L payload bits give no outcome before the last, and on the last Accept exactly when
payload bit j is bit 8L-1-j of `cfg_release_code` for every j, else Reject; then Idle, with an empty buffer. -/
def Obligations.FrameEndsInAcceptExactlyOnTheCode : Prop :=
  ∀ (s : State) (bits : List Bool), legalConfig s = true → s.syncFlag = false → bits.length = 8 * s.params.codeBytes →
    let framed := { s with inputs := .fd true true :: bits.map (.fd true) }
    let good := ∀ j, j < bits.length → bits[j]? = some (s.cfg.releaseCode.testBit (bits.length - 1 - j))
    (∀ n, 1 ≤ n → n ≤ bits.length → ∃ t, Host.Core.run core n framed = .next t ∧
      t.outcome = 0b00#2 ∧ t.activate = false ∧ t.syncFlag = true ∧ t.bitCount = n) ∧
    ∃ t, Host.Core.run core (bits.length + 1) framed = .next t ∧
      (good → t.outcome = 0b01#2 ∧ t.activate = true) ∧ (¬ good → t.outcome = 0b10#2 ∧ t.activate = false) ∧
      t.syncFlag = false ∧ t.bitCount = 0 ∧ t.buf = List.replicate s.params.codeBytes 0x00#8

/-- R171 (c): in a state of the invariant the bit path never selects FD_OVERFLOW. -/
def Obligations.OverflowIsNeverSelected : Prop :=
  ∀ (s : State) (fire b c : Bool), FrameOk s → decodeFd (fdVector s fire b) ≠ .ok (.overflow c)

/-- R175, R168: `activate` is 1 only after the step in which a Syncing decoder took its last bit and the buffer with that bit was the
release code: the level, in a cycle whose tick fired a bit, or the bit driven at the decoder's interface; in that step `outcome`
is 01. -/
def Obligations.ActivateOnlyAfterAcceptance : Prop :=
  ∀ s t : State, s.Inv → step s = .next t → t.activate = true →
    t.outcome = 0b01#2 ∧ s.syncFlag = true ∧ s.bitCount = 8 * s.params.codeBytes ∧ t.syncFlag = false ∧
    ((∃ p, nextStimulus s = .cycle p ∧ p.rst = false ∧ p.usTick = true ∧ s.divCnt.toNat + 1 = bitPeriod s.cfg ∧
        nextBuf s s.symLevel = rcBytes s) ∨
      ∃ b, nextStimulus s = .fd true b ∧ nextBuf s b = rcBytes s)

/-! ### The cycle (45_cycle.md) -/

/-- R202: NOP, EV 000, clears the output strobes and changes nothing else; it performs DV_IDLE, BIT_NONE and FD_NOBIT. -/
def Obligations.NopClearsTheStrobes : Prop :=
  (∀ x : Sample, decode (.ev 0b000#3 x) = .ok .nop) ∧
  ∀ s : State, legalConfig s = true →
    exec .nop s = .next { s with
      bitValid := false, bitOut := false, winCode := 0b00#2, outcome := 0b00#2, activate := false } ∧
    decodeDv (dvVector s false) = .ok .idle ∧ decodeBs (bsVector (fireOf .idle)) = .ok .none ∧
    decodeFd (fdVector s (fireOf .idle) s.symLevel) = .ok .nobit

/-- R203: TICK counts within a bit period; at its end it clears the counter, samples the level, and runs the FrameDecoder on it.
Where div_cnt + 1 does not fit in 20 bits, which no run reaches, only the count is open (the model's choice, assumption log 8). -/
def Obligations.TickRunsTheBitPath : Prop :=
  ∀ s : State, legalConfig s = true →
    let clear := { s with bitValid := false, bitOut := false, winCode := 0b00#2, outcome := 0b00#2, activate := false }
    (s.divCnt.toNat + 1 ≠ bitPeriod s.cfg → ∃ n, (s.divCnt.toNat + 1 < 2 ^ 20 → n.toNat = s.divCnt.toNat + 1) ∧
      exec .tick s = .next { clear with divCnt := n }) ∧
    (s.divCnt.toNat + 1 = bitPeriod s.cfg →
      ∃ o, decodeFd (fdVector s true s.symLevel) = .ok o ∧
        exec .tick s = exec o.toInstr { clear with divCnt := 0, bitValid := true, bitOut := s.symLevel })

/-- R205, R206, R201: in SAMPLE_TICK the sample path does what SAMPLE does, and the bit path what TICK does: neither is lost, and
neither sees the other. -/
def Obligations.SampleTickIsSampleAndTick : Prop :=
  ∀ (s : State) (x : Sample), legalConfig s = true →
    ∃ a b t, exec (.sample x) s = .next a ∧ exec .tick s = .next b ∧ exec (.sampleTick x) s = .next t ∧
      t = { a with
        divCnt := b.divCnt, syncFlag := b.syncFlag, bitCount := b.bitCount, buf := b.buf, bitValid := b.bitValid,
        bitOut := b.bitOut, outcome := b.outcome, activate := b.activate }

/-- R100, R201, R204: a cycle without a sample leaves the tones, the level and its validity, and clears `win_code`; a cycle without a
tick leaves the divider and the FrameDecoder, and clears their strobes; no EV operation but RESET writes any other register. -/
def Obligations.CycleWithoutAnEventLeavesItsPath : Prop :=
  ∀ (s t : State) (x : Sample),
    ((exec .nop s = .next t ∨ exec .tick s = .next t) →
      t.tone0 = s.tone0 ∧ t.tone1 = s.tone1 ∧ t.symLevel = s.symLevel ∧ t.symValid = s.symValid ∧ t.winCode = 0b00#2) ∧
    ((exec .nop s = .next t ∨ exec (.sample x) s = .next t) →
      t.divCnt = s.divCnt ∧ t.syncFlag = s.syncFlag ∧ t.bitCount = s.bitCount ∧ t.buf = s.buf ∧
      t.bitValid = false ∧ t.bitOut = false ∧ t.outcome = 0b00#2 ∧ t.activate = false)

/-- R204: a strobe that no operation of the cycle writes is 0 after it: `win_code` unless both windows completed, the sampler's and
the decoder's strobes unless a bit fired. -/
def Obligations.StrobesAreClearedUnlessWritten : Prop :=
  ∀ (s t : State) (x : Sample), exec (.sampleTick x) s = .next t →
    (¬ (s.tone0.cnt.toNat + 1 = s.cfg.window.toNat ∧ s.tone1.cnt.toNat + 1 = s.cfg.window.toNat) → t.winCode = 0b00#2) ∧
    (s.divCnt.toNat + 1 ≠ bitPeriod s.cfg →
      t.bitValid = false ∧ t.bitOut = false ∧ t.outcome = 0b00#2 ∧ t.activate = false) ∧
    (s.divCnt.toNat + 1 = bitPeriod s.cfg → s.bitCount ≠ 8 * s.params.codeBytes → s.bitCount ≤ 8 * s.params.codeBytes →
      t.outcome = 0b00#2 ∧ t.activate = false)

/-- R6, R34: no operation writes a parameter or the configuration. -/
def Obligations.ConfigurationIsReadOnly : Prop :=
  ∀ (i : Instr) (s t : State), exec i s = .next t →
    t.params = s.params ∧ t.cfg = s.cfg ∧ t.cfgOpen = s.cfgOpen ∧ t.inputs = s.inputs

/-- R27, R20: `sym_level` changes only through SD_SET0, SD_SET1, the cycles that perform them, and reset. -/
def Obligations.OnlyDecisionsChangeTheLevel : Prop :=
  ∀ (i : Instr) (s t : State), exec i s = .next t → t.symLevel ≠ s.symLevel →
    i = .sdSet0 ∨ i = .sdSet1 ∨ i = .reset ∨
    ((∃ x, i = .sample x ∨ i = .sampleTick x) ∧ s.tone0.cnt.toNat + 1 = s.cfg.window.toNat ∧
      s.tone1.cnt.toNat + 1 = s.cfg.window.toNat ∧ t.symValid = true)

/-- R26, R100, R20: the magnitude of a tone changes only where a window of that tone completes, and in reset. -/
def Obligations.OnlyCompletedWindowsChangeTheMagnitude : Prop :=
  ∀ (i : Instr) (s t : State) (k : Tone), exec i s = .next t → (t.tone k).mag ≠ (s.tone k).mag →
    i = .reset ∨ (∃ x, i = .teComplete k x) ∨
    ((∃ x, i = .sample x ∨ i = .sampleTick x) ∧ (s.tone k).cnt.toNat + 1 = s.cfg.window.toNat)

/-- R28, R128: once set, `sym_valid` stays 1 through every operation but reset. -/
def Obligations.LevelStaysValidUntilReset : Prop :=
  ∀ (i : Instr) (s t : State), exec i s = .next t → i ≠ .reset → s.symValid = true → t.symValid = true

/-! ### Reset, configuration and the whole machine (70_reset_and_hazards.md, 60_exceptions.md) -/

/-- R240: RESET, EV 1xx with any sample and any tick, writes every register its reset value, and nothing else, under every
configuration that R91 does not refuse (R222). -/
def Obligations.ResetWritesEveryRegister : Prop :=
  (∀ (v : BitVec 3) (x : Sample), v.getLsbD 2 = true → decode (.ev v x) = .ok .reset) ∧
  ∀ s : State, legalConfig s = true →
    exec .reset s = .next { s with
      tone0 := ⟨0x00000000#32, 0x00000000#32, 0x00000000#32, 0, 0x00000000#32⟩
      tone1 := ⟨0x00000000#32, 0x00000000#32, 0x00000000#32, 0, 0x00000000#32⟩
      symLevel := false, symValid := false, divCnt := 0, syncFlag := false, bitCount := 0
      buf := List.replicate s.params.codeBytes 0x00#8
      bitValid := false, bitOut := false, winCode := 0b00#2, outcome := 0b00#2, activate := false }

/-- R241: holding reset for further cycles, under a legal configuration, gives the same registers as one cycle of it. -/
def Obligations.HoldingResetKeepsTheResetState : Prop :=
  ∀ (s t u : State) (n : Nat) (p : Ports), p.rst = true → paramsLegal s.params = true → cfgLegal s.params p.cfg = true →
    s.inputs = List.replicate (n + 1) (.cycle p) →
    Host.Core.run core 1 s = .next t → Host.Core.run core (n + 1) s = .next u → u = { t with inputs := [] }

/-- R242 and the values of `State.reset`: the entry state, for any legal parameters and configuration, meets the invariant. -/
def Obligations.EntryStateMeetsTheInvariant : Prop :=
  State.reset.Inv ∧ ∀ (p : Params) (c : Cfg), paramsLegal p = true → cfgLegal p c = true → (State.resetFor p c).Inv

/-- R25, R29, R89, R171 and 10_state.md's summary: every step keeps the invariant. -/
def Obligations.EveryStepKeepsTheInvariant : Prop := ∀ s t : State, s.Inv → step s = .next t → t.Inv

/-- R201, R220: under the host's duties every step answers a next state: nothing faults and no vector is refused. -/
def Obligations.EveryAdmittedStepCompletes : Prop :=
  ∀ s : State, paramsLegal s.params = true → HostOk s (nextStimulus s) → ∃ t, step s = .next t

/-- R91, R222: under a refused configuration no operation runs, RESET included; and a configuration is refused exactly where a value
of R6 or R7 is out of its range. That a RELEASE_CODE is a number below 2^(8L) is the width of its port (assumption log 16). -/
def Obligations.RefusedConfigurationAdmitsNoOperation : Prop :=
  (∀ (i : Instr) (s : State), legalConfig s = false → exec i s = .refused .refusedConfiguration) ∧
  ∀ s : State, legalConfig s = true ↔
    s.cfg.window ≠ 0#16 ∧ s.cfg.bitRate ≠ 0#20 ∧ s.cfg.bitRate.toNat ≤ 1000000 ∧ s.params.codeBytes ≠ 0 ∧
      1 ≤ s.params.sampleBits ∧ s.params.sampleBits ≤ 24 ∧ s.cfg.releaseCode < 2 ^ (8 * s.params.codeBytes)

/-- R250: a cycle with rst = 0 whose configuration differs from the cycle before is refused, unless that cycle had rst = 1. -/
def Obligations.ConfigurationChangeWhileRunningIsRefused : Prop :=
  ∀ (s : State) (p : Ports) (rest : List Stimulus), s.inputs = .cycle p :: rest →
    (p.rst = false → s.cfgOpen = false → p.cfg ≠ s.cfg → step s = .refused .configurationChanged) ∧
    (p.rst = true ∨ s.cfgOpen = true ∨ p.cfg = s.cfg → step s ≠ .refused .configurationChanged)

/-- The model's refusal of a sample that the SAMPLE_BITS wires of its port cannot carry (R209, assumption log 14): in the cycles
that read the port, and in no other. -/
def Obligations.SampleBeyondThePortIsRefused : Prop :=
  ∀ (s : State) (p : Ports) (rest : List Stimulus), s.inputs = .cycle p :: rest → cfgHeld p s = true →
    (p.rst = false → p.sampleValid = true → 2 ^ s.params.sampleBits ≤ p.sample.toNat → step s = .refused .sampleTooWide) ∧
    (p.rst = true ∨ p.sampleValid = false ∨ p.sample.toNat < 2 ^ s.params.sampleBits → step s ≠ .refused .sampleTooWide)

/-- R200, R87: a step takes the next stimulus off the list, latches the ports, and is `exec` of the operation the EV word decodes
to; past the end of the list it is `exec` of NOP. -/
def Obligations.StepRunsTheDecodedOperation : Prop :=
  (∀ (s : State) (p : Ports) (rest : List Stimulus) (i : Instr), s.inputs = .cycle p :: rest →
    decode (evWord p) = .ok i → i.wellFormed s.params = true → cfgHeld p s = true →
    step s = exec i { s with inputs := rest, cfg := p.cfg, cfgOpen := p.rst }) ∧
  (∀ (s : State) (fire b : Bool) (rest : List Stimulus) (o : FdOp), s.inputs = .fd fire b :: rest →
    decodeFd (fdVector s fire b) = .ok o →
    step s = exec o.toInstr { s with inputs := rest, cfgOpen := false }) ∧
  ∀ s : State, s.inputs = [] → step s = exec .nop { s with cfgOpen := false }

/-! ### More of the primitives, the ports and the widths -/

/-- R11: an infinity and a finite operand, or infinities that IEEE 754 adds, subtracts or multiplies to no NaN, give the infinity of
the sign IEEE 754 says. -/
def Obligations.InfiniteOperandsGiveInfinities : Prop :=
  ∀ (n : Nat) (a b : F32) (s t : Bool) (m : Nat),
    (classify a = .inf s → classify b = .finite t m →
      classify (f32Add n a b) = .inf s ∧ classify (f32Add n b a) = .inf s ∧
      classify (f32Sub n a b) = .inf s ∧ classify (f32Sub n b a) = .inf (!s) ∧
      (m ≠ 0 → classify (f32Mul n a b) = .inf (s != t) ∧ classify (f32Mul n b a) = .inf (s != t))) ∧
    (classify a = .inf s → classify b = .inf t →
      (s = t → classify (f32Add n a b) = .inf s) ∧ (s ≠ t → classify (f32Sub n a b) = .inf s) ∧
      classify (f32Mul n a b) = .inf (s != t))

/-- R23, R127: every output port shows the register that drives it, and `sym_pin` shows `sym_level`. -/
def Obligations.OutputsShowTheRegisters : Prop :=
  ∀ s : State,
    s.outputs.symLevel = s.symLevel ∧ s.outputs.symPin = s.symLevel ∧ s.outputs.symValid = s.symValid ∧
    s.outputs.winCode = s.winCode ∧ s.outputs.bitValid = s.bitValid ∧ s.outputs.bitOut = s.bitOut ∧
    s.outputs.outcome = s.outcome ∧ s.outputs.activate = s.activate ∧ s.outputs.syncFlag = s.syncFlag ∧
    s.outputs.bitCount = s.bitCount ∧ s.outputs.mag0 = s.tone0.mag ∧ s.outputs.mag1 = s.tone1.mag

/-- R6, R31: BC_BITS is the least n with 2^n > 8L + 1, and no operation, in any state, leaves a `bit_count` of more bits where the
register held one of BC_BITS bits. -/
def Obligations.BitCountKeepsItsWidth : Prop :=
  (∀ l : Nat, 8 * l + 1 < 2 ^ bcBits l ∧ ∀ n, 8 * l + 1 < 2 ^ n → bcBits l ≤ n) ∧
  ∀ (i : Instr) (s t : State), exec i s = .next t → s.bitCount < 2 ^ bcBits s.params.codeBytes →
    t.bitCount < 2 ^ bcBits t.params.codeBytes
end

