-- ==== Sys2Proof/Laws/Binary32.lean ====
section
/-! SUPPORT. The binary32 primitives: reading back what was packed, NaN draws, the order, and the rounding. -/

namespace Sys2Proof.Machine

/-- The number of a packed pattern. -/
theorem packF32_toNat (neg : Bool) (low : Nat) (h : low < 2 ^ 31) :
    (packF32 neg low).toNat = (if neg then 2 ^ 31 else 0) + low := by
  cases neg <;> simp [packF32, BitVec.toNat_ofNat] <;> omega

/-- Reading back a pattern below infinity. -/
theorem classify_packF32 (neg : Bool) (low : Nat) (h : low < 255 * 2 ^ 23) :
    classify (packF32 neg low) = .finite neg
      (if low / 2 ^ 23 = 0 then low % 2 ^ 23 else (2 ^ 23 + low % 2 ^ 23) * 2 ^ (low / 2 ^ 23 - 1)) := by
  have h1 := packF32_toNat neg low (by omega)
  have he : (packF32 neg low).toNat / 2 ^ 23 % 256 = low / 2 ^ 23 := by rw [h1]; cases neg <;> simp <;> omega
  have hf : (packF32 neg low).toNat % 2 ^ 23 = low % 2 ^ 23 := by rw [h1]; cases neg <;> (simp; try omega)
  have hs : decide (2 ^ 31 ≤ (packF32 neg low).toNat) = neg := by rw [h1]; cases neg <;> (simp; try omega)
  have hn : ¬ low / 2 ^ 23 = 255 := by omega
  simp only [classify, he, hf, hs, hn, if_false]

theorem classify_f32Inf (neg : Bool) : classify (f32Inf neg) = .inf neg := by cases neg <;> decide

/-- A drawn pattern is a NaN, whatever is drawn. -/
theorem classify_drawnNaN (n : Nat) : classify (drawnNaN n) = .nan := by
  unfold drawnNaN
  generalize Config.nanDraw n = d
  have hd := d.isLt
  have h1 := packF32_toNat (decide (2 ^ 22 ≤ d.toNat)) (0x7FC00000 + d.toNat % 2 ^ 22) (by omega)
  have he : (packF32 (decide (2 ^ 22 ≤ d.toNat)) (0x7FC00000 + d.toNat % 2 ^ 22)).toNat / 2 ^ 23 % 256 = 255 := by
    rw [h1]; split <;> omega
  have hf : ¬ (packF32 (decide (2 ^ 22 ≤ d.toNat)) (0x7FC00000 + d.toNat % 2 ^ 22)).toNat % 2 ^ 23 = 0 := by
    rw [h1]; split <;> omega
  simp only [classify, he, hf, if_true, if_false]

/-- A drawn pattern is quiet (00_scope.md R11): bit 22 is 1. -/
theorem drawnNaN_quiet (n : Nat) : (drawnNaN n).getLsbD 22 = true := by
  unfold drawnNaN
  generalize Config.nanDraw n = d
  have hd := d.isLt
  have h1 := packF32_toNat (decide (2 ^ 22 ≤ d.toNat)) (0x7FC00000 + d.toNat % 2 ^ 22) (by omega)
  simp only [BitVec.getLsbD, Nat.testBit_eq_decide_div_mod_eq, h1, decide_eq_true_eq]
  split <;> omega

/-- Nothing is both above and below (30_encoding.md R92). -/
theorem f32Gt_asymm (a b : F32) : (f32Gt a b && f32Gt b a) = false := by
  unfold f32Gt
  cases classify a with
  | nan => cases classify b <;> rfl
  | inf s => cases classify b with
    | nan => rfl
    | inf t => cases s <;> cases t <;> rfl
    | finite t l => cases s <;> rfl
  | finite s m => cases classify b with
    | nan => rfl
    | inf t => cases t <;> rfl
    | finite t l => simp; omega

/-- A NaN is never above. -/
theorem f32Gt_nan_left (a b : F32) (h : classify a = .nan) : f32Gt a b = false := by simp [f32Gt, h]

/-- A NaN is never below. -/
theorem f32Gt_nan_right (a b : F32) (h : classify b = .nan) : f32Gt a b = false := by
  unfold f32Gt; rw [h]; cases classify a <;> rfl

end Sys2Proof.Machine
end

