-- ==== Sys2Proof/Laws/Decode.lean ====
section
/-! SUPPORT. What each decoder answers on the vector the block forms: one lemma per format. -/

namespace Sys2Proof.Machine

/-- The EV operation of a cycle (30_encoding.md R81). -/
theorem decodeEv_vector (r v u : Bool) (x : Sample) : decodeEv (evVector r v u) x =
    .ok (if r then .reset else if v then (if u then .sampleTick x else .sample x) else if u then .tick else .nop) := by
  cases r <;> cases v <;> cases u <;> simp [decodeEv, firstRow, Instr.row, TableRow.hits, evVector, bitNat]

/-- TE_COMPLETE exactly at cnt_k + 1 = W (R82). -/
theorem decodeTe_vector (s : State) (k : Tone) : decodeTe (teVector s k) =
    .ok (if (s.tone k).cnt.toNat + 1 = s.cfg.window.toNat then .complete else .step) := by
  by_cases h : (s.tone k).cnt.toNat + 1 = s.cfg.window.toNat <;> simp only [teVector, lastFlag, h, decide_true, decide_false, if_true, if_false] <;> rfl

/-- DV_WRAP exactly on a tick at div_cnt.toNat + 1 = P (R84). -/
theorem decodeDv_vector (s : State) (u : Bool) : decodeDv (dvVector s u) =
    .ok (if u then (if s.divCnt.toNat + 1 = bitPeriod s.cfg then .wrap else .count) else .idle) := by
  by_cases h : s.divCnt.toNat + 1 = bitPeriod s.cfg <;> cases u <;>
    simp only [dvVector, wrapFlag, h, decide_true, decide_false, if_true, if_false] <;> rfl

/-- BIT_SAMPLE exactly on a fire (R85). -/
theorem decodeBs_vector (f : Bool) : decodeBs (bsVector f) = .ok (if f then .sample else .none) := by
  cases f <;> rfl

/-- No vector with done = 0 selects a decision (R83). -/
theorem decodeSd_nothing (m0 m1 : Option F32) (c : F32) (h : m0 = none ∨ m1 = none) :
    decodeSd (sdVector m0 m1 c) = .ok .none := by
  have h0 : sdVector m0 m1 c = 0#5 := by
    rcases h with rfl | rfl
    · rfl
    · cases m0 <;> rfl
  rw [h0]; rfl

/-- The decision of two magnitudes (R83, R121): the comparisons never meet a vector of R92. -/
theorem decodeSd_vector (m0 m1 c : F32) : decodeSd (sdVector (some m0) (some m1) c) =
    .ok (if f32Gt m0 c && f32Lt m1 c then .set0 else if f32Lt m0 c && f32Gt m1 c then .set1 else .hold) := by
  have h0 := f32Gt_asymm m0 c
  have h1 := f32Gt_asymm m1 c
  have key : ∀ a b d e : Bool, (a && b) = false → (d && e) = false →
      decodeSd (.ofNat 5 (16 + 8 * bitNat a + 4 * bitNat b + 2 * bitNat d + bitNat e)) =
        .ok (if a && e then .set0 else if b && d then .set1 else .hold) := by decide
  exact key _ _ _ _ h0 h1

/-- The FD operation for (fire, b) (43_frame_decoder.md R163). -/
def fdChoice (s : State) (fire b : Bool) : FdOp :=
  if fire = false then .nobit
  else if s.syncFlag = false then (if b then .sync else .ignore)
  else if s.bitCount < 8 * s.params.codeBytes then .store b
  else if s.bitCount = 8 * s.params.codeBytes then (if nextBuf s b = rcBytes s then .accept b else .reject b)
  else .overflow b

/-- The seven choices of R163, each with its condition. -/
theorem fdChoice_cases (s : State) (fire b : Bool) :
    (fdChoice s fire b = .nobit ∧ fire = false) ∨
    (fdChoice s fire b = .ignore ∧ fire = true ∧ s.syncFlag = false ∧ b = false) ∨
    (fdChoice s fire b = .sync ∧ fire = true ∧ s.syncFlag = false ∧ b = true) ∨
    (fdChoice s fire b = .store b ∧ fire = true ∧ s.syncFlag = true ∧ s.bitCount < 8 * s.params.codeBytes) ∨
    (fdChoice s fire b = .accept b ∧ fire = true ∧ s.syncFlag = true ∧ s.bitCount = 8 * s.params.codeBytes ∧
      nextBuf s b = rcBytes s) ∨
    (fdChoice s fire b = .reject b ∧ fire = true ∧ s.syncFlag = true ∧ s.bitCount = 8 * s.params.codeBytes ∧
      nextBuf s b ≠ rcBytes s) ∨
    (fdChoice s fire b = .overflow b ∧ fire = true ∧ s.syncFlag = true ∧ 8 * s.params.codeBytes < s.bitCount) := by
  unfold fdChoice
  cases fire
  · simp
  · cases hy : s.syncFlag
    · cases b <;> simp
    · rcases Nat.lt_trichotomy s.bitCount (8 * s.params.codeBytes) with h | h | h
      · simp [h]
      · by_cases hc : nextBuf s b = rcBytes s <;> simp [h, hc]
      · have h1 : ¬ s.bitCount < 8 * s.params.codeBytes := by omega
        have h2 : ¬ s.bitCount = 8 * s.params.codeBytes := by omega
        simp [h1, h2, h]

/-- The decoder reads the operation of R163's table; it never meets a vector of R92. -/
theorem decodeFd_vector (s : State) (fire b : Bool) : decodeFd (fdVector s fire b) = .ok (fdChoice s fire b) := by
  unfold fdChoice fdVector
  cases fire
  · have : bitNat (false && s.syncFlag && matchFlag s b) = 0 := by simp [bitNat]
    rw [this]
    generalize endFlag s = e; generalize overFlag s = o; generalize s.syncFlag = y
    cases e <;> cases o <;> cases y <;> cases b <;> rfl
  · cases hy : s.syncFlag
    · have : bitNat (true && false && matchFlag s b) = 0 := by simp [bitNat]
      rw [this]
      generalize endFlag s = e; generalize overFlag s = o
      cases e <;> cases o <;> cases b <;> rfl
    · have hm : (true && true && matchFlag s b) = decide (nextBuf s b = rcBytes s) := by
        simp [matchFlag, beq_eq_decide]
      rw [hm]
      rcases Nat.lt_trichotomy s.bitCount (8 * s.params.codeBytes) with h | h | h
      · have h1 : endFlag s = false := by simp [endFlag]; omega
        have h2 : overFlag s = false := by simp [overFlag]; omega
        rw [h1, h2]
        simp only [h, if_true]
        generalize decide (nextBuf s b = rcBytes s) = m
        cases m <;> cases b <;> rfl
      · have h1 : endFlag s = true := by simp [endFlag]; omega
        have h2 : overFlag s = false := by simp [overFlag]; omega
        rw [h1, h2]
        have h3 : ¬ s.bitCount < 8 * s.params.codeBytes := by omega
        simp only [h, if_true]
        by_cases hc : nextBuf s b = rcBytes s <;> simp only [hc, decide_true, decide_false, if_true, if_false] <;>
          cases b <;> simp <;> rfl
      · have h1 : endFlag s = false := by simp [endFlag]; omega
        have h2 : overFlag s = true := by simp [overFlag]; omega
        rw [h1, h2]
        have h3 : ¬ s.bitCount < 8 * s.params.codeBytes := by omega
        have h4 : ¬ s.bitCount = 8 * s.params.codeBytes := by omega
        simp only [h3, h4, if_false]
        generalize decide (nextBuf s b = rcBytes s) = m
        cases m <;> cases b <;> rfl

end Sys2Proof.Machine
end

