-- ==== Sys2Proof/Laws/State.lean ====
section
/-! SUPPORT. What every named update of State leaves in every field, each by rfl; and the tone accessors. -/

namespace Sys2Proof.Machine

variable (s : State) (p : Ports) (k : Tone) (t : ToneState) (x : Sample)

@[simp] theorem clearStrobes_params : (clearStrobes s).params = s.params := rfl
@[simp] theorem clearStrobes_cfg : (clearStrobes s).cfg = s.cfg := rfl
@[simp] theorem clearStrobes_cfgOpen : (clearStrobes s).cfgOpen = s.cfgOpen := rfl
@[simp] theorem clearStrobes_tone0 : (clearStrobes s).tone0 = s.tone0 := rfl
@[simp] theorem clearStrobes_tone1 : (clearStrobes s).tone1 = s.tone1 := rfl
@[simp] theorem clearStrobes_symLevel : (clearStrobes s).symLevel = s.symLevel := rfl
@[simp] theorem clearStrobes_symValid : (clearStrobes s).symValid = s.symValid := rfl
@[simp] theorem clearStrobes_divCnt : (clearStrobes s).divCnt = s.divCnt := rfl
@[simp] theorem clearStrobes_syncFlag : (clearStrobes s).syncFlag = s.syncFlag := rfl
@[simp] theorem clearStrobes_bitCount : (clearStrobes s).bitCount = s.bitCount := rfl
@[simp] theorem clearStrobes_buf : (clearStrobes s).buf = s.buf := rfl
@[simp] theorem clearStrobes_bitValid : (clearStrobes s).bitValid = false := rfl
@[simp] theorem clearStrobes_bitOut : (clearStrobes s).bitOut = false := rfl
@[simp] theorem clearStrobes_winCode : (clearStrobes s).winCode = 0b00#2 := rfl
@[simp] theorem clearStrobes_outcome : (clearStrobes s).outcome = 0b00#2 := rfl
@[simp] theorem clearStrobes_activate : (clearStrobes s).activate = false := rfl
@[simp] theorem clearStrobes_draw : (clearStrobes s).draw = s.draw := rfl
@[simp] theorem clearStrobes_inputs : (clearStrobes s).inputs = s.inputs := rfl

@[simp] theorem clearFrameStrobes_params : (clearFrameStrobes s).params = s.params := rfl
@[simp] theorem clearFrameStrobes_cfg : (clearFrameStrobes s).cfg = s.cfg := rfl
@[simp] theorem clearFrameStrobes_cfgOpen : (clearFrameStrobes s).cfgOpen = s.cfgOpen := rfl
@[simp] theorem clearFrameStrobes_tone0 : (clearFrameStrobes s).tone0 = s.tone0 := rfl
@[simp] theorem clearFrameStrobes_tone1 : (clearFrameStrobes s).tone1 = s.tone1 := rfl
@[simp] theorem clearFrameStrobes_symLevel : (clearFrameStrobes s).symLevel = s.symLevel := rfl
@[simp] theorem clearFrameStrobes_symValid : (clearFrameStrobes s).symValid = s.symValid := rfl
@[simp] theorem clearFrameStrobes_divCnt : (clearFrameStrobes s).divCnt = s.divCnt := rfl
@[simp] theorem clearFrameStrobes_syncFlag : (clearFrameStrobes s).syncFlag = s.syncFlag := rfl
@[simp] theorem clearFrameStrobes_bitCount : (clearFrameStrobes s).bitCount = s.bitCount := rfl
@[simp] theorem clearFrameStrobes_buf : (clearFrameStrobes s).buf = s.buf := rfl
@[simp] theorem clearFrameStrobes_bitValid : (clearFrameStrobes s).bitValid = s.bitValid := rfl
@[simp] theorem clearFrameStrobes_bitOut : (clearFrameStrobes s).bitOut = s.bitOut := rfl
@[simp] theorem clearFrameStrobes_winCode : (clearFrameStrobes s).winCode = s.winCode := rfl
@[simp] theorem clearFrameStrobes_outcome : (clearFrameStrobes s).outcome = 0b00#2 := rfl
@[simp] theorem clearFrameStrobes_activate : (clearFrameStrobes s).activate = false := rfl
@[simp] theorem clearFrameStrobes_draw : (clearFrameStrobes s).draw = s.draw := rfl
@[simp] theorem clearFrameStrobes_inputs : (clearFrameStrobes s).inputs = s.inputs := rfl

@[simp] theorem clearFrame_params : (clearFrame s).params = s.params := rfl
@[simp] theorem clearFrame_cfg : (clearFrame s).cfg = s.cfg := rfl
@[simp] theorem clearFrame_cfgOpen : (clearFrame s).cfgOpen = s.cfgOpen := rfl
@[simp] theorem clearFrame_tone0 : (clearFrame s).tone0 = s.tone0 := rfl
@[simp] theorem clearFrame_tone1 : (clearFrame s).tone1 = s.tone1 := rfl
@[simp] theorem clearFrame_symLevel : (clearFrame s).symLevel = s.symLevel := rfl
@[simp] theorem clearFrame_symValid : (clearFrame s).symValid = s.symValid := rfl
@[simp] theorem clearFrame_divCnt : (clearFrame s).divCnt = s.divCnt := rfl
@[simp] theorem clearFrame_syncFlag : (clearFrame s).syncFlag = false := rfl
@[simp] theorem clearFrame_bitCount : (clearFrame s).bitCount = 0 := rfl
@[simp] theorem clearFrame_buf : (clearFrame s).buf = clearedBuf s := rfl
@[simp] theorem clearFrame_bitValid : (clearFrame s).bitValid = s.bitValid := rfl
@[simp] theorem clearFrame_bitOut : (clearFrame s).bitOut = s.bitOut := rfl
@[simp] theorem clearFrame_winCode : (clearFrame s).winCode = s.winCode := rfl
@[simp] theorem clearFrame_outcome : (clearFrame s).outcome = s.outcome := rfl
@[simp] theorem clearFrame_activate : (clearFrame s).activate = s.activate := rfl
@[simp] theorem clearFrame_draw : (clearFrame s).draw = s.draw := rfl
@[simp] theorem clearFrame_inputs : (clearFrame s).inputs = s.inputs := rfl

@[simp] theorem resetRegisters_params : (resetRegisters s).params = s.params := rfl
@[simp] theorem resetRegisters_cfg : (resetRegisters s).cfg = s.cfg := rfl
@[simp] theorem resetRegisters_cfgOpen : (resetRegisters s).cfgOpen = s.cfgOpen := rfl
@[simp] theorem resetRegisters_tone0 : (resetRegisters s).tone0 = ToneState.reset := rfl
@[simp] theorem resetRegisters_tone1 : (resetRegisters s).tone1 = ToneState.reset := rfl
@[simp] theorem resetRegisters_symLevel : (resetRegisters s).symLevel = false := rfl
@[simp] theorem resetRegisters_symValid : (resetRegisters s).symValid = false := rfl
@[simp] theorem resetRegisters_divCnt : (resetRegisters s).divCnt = 0 := rfl
@[simp] theorem resetRegisters_syncFlag : (resetRegisters s).syncFlag = false := rfl
@[simp] theorem resetRegisters_bitCount : (resetRegisters s).bitCount = 0 := rfl
@[simp] theorem resetRegisters_buf : (resetRegisters s).buf = clearedBuf s := rfl
@[simp] theorem resetRegisters_bitValid : (resetRegisters s).bitValid = false := rfl
@[simp] theorem resetRegisters_bitOut : (resetRegisters s).bitOut = false := rfl
@[simp] theorem resetRegisters_winCode : (resetRegisters s).winCode = 0b00#2 := rfl
@[simp] theorem resetRegisters_outcome : (resetRegisters s).outcome = 0b00#2 := rfl
@[simp] theorem resetRegisters_activate : (resetRegisters s).activate = false := rfl
@[simp] theorem resetRegisters_draw : (resetRegisters s).draw = s.draw := rfl
@[simp] theorem resetRegisters_inputs : (resetRegisters s).inputs = s.inputs := rfl

@[simp] theorem latchPorts_params : (latchPorts p s).params = s.params := rfl
@[simp] theorem latchPorts_cfg : (latchPorts p s).cfg = p.cfg := rfl
@[simp] theorem latchPorts_cfgOpen : (latchPorts p s).cfgOpen = p.rst := rfl
@[simp] theorem latchPorts_tone0 : (latchPorts p s).tone0 = s.tone0 := rfl
@[simp] theorem latchPorts_tone1 : (latchPorts p s).tone1 = s.tone1 := rfl
@[simp] theorem latchPorts_symLevel : (latchPorts p s).symLevel = s.symLevel := rfl
@[simp] theorem latchPorts_symValid : (latchPorts p s).symValid = s.symValid := rfl
@[simp] theorem latchPorts_divCnt : (latchPorts p s).divCnt = s.divCnt := rfl
@[simp] theorem latchPorts_syncFlag : (latchPorts p s).syncFlag = s.syncFlag := rfl
@[simp] theorem latchPorts_bitCount : (latchPorts p s).bitCount = s.bitCount := rfl
@[simp] theorem latchPorts_buf : (latchPorts p s).buf = s.buf := rfl
@[simp] theorem latchPorts_bitValid : (latchPorts p s).bitValid = s.bitValid := rfl
@[simp] theorem latchPorts_bitOut : (latchPorts p s).bitOut = s.bitOut := rfl
@[simp] theorem latchPorts_winCode : (latchPorts p s).winCode = s.winCode := rfl
@[simp] theorem latchPorts_outcome : (latchPorts p s).outcome = s.outcome := rfl
@[simp] theorem latchPorts_activate : (latchPorts p s).activate = s.activate := rfl
@[simp] theorem latchPorts_draw : (latchPorts p s).draw = s.draw := rfl
@[simp] theorem latchPorts_inputs : (latchPorts p s).inputs = s.inputs := rfl

@[simp] theorem takeStimulus_params : (takeStimulus s).params = s.params := rfl
@[simp] theorem takeStimulus_cfg : (takeStimulus s).cfg = s.cfg := rfl
@[simp] theorem takeStimulus_cfgOpen : (takeStimulus s).cfgOpen = s.cfgOpen := rfl
@[simp] theorem takeStimulus_tone0 : (takeStimulus s).tone0 = s.tone0 := rfl
@[simp] theorem takeStimulus_tone1 : (takeStimulus s).tone1 = s.tone1 := rfl
@[simp] theorem takeStimulus_symLevel : (takeStimulus s).symLevel = s.symLevel := rfl
@[simp] theorem takeStimulus_symValid : (takeStimulus s).symValid = s.symValid := rfl
@[simp] theorem takeStimulus_divCnt : (takeStimulus s).divCnt = s.divCnt := rfl
@[simp] theorem takeStimulus_syncFlag : (takeStimulus s).syncFlag = s.syncFlag := rfl
@[simp] theorem takeStimulus_bitCount : (takeStimulus s).bitCount = s.bitCount := rfl
@[simp] theorem takeStimulus_buf : (takeStimulus s).buf = s.buf := rfl
@[simp] theorem takeStimulus_bitValid : (takeStimulus s).bitValid = s.bitValid := rfl
@[simp] theorem takeStimulus_bitOut : (takeStimulus s).bitOut = s.bitOut := rfl
@[simp] theorem takeStimulus_winCode : (takeStimulus s).winCode = s.winCode := rfl
@[simp] theorem takeStimulus_outcome : (takeStimulus s).outcome = s.outcome := rfl
@[simp] theorem takeStimulus_activate : (takeStimulus s).activate = s.activate := rfl
@[simp] theorem takeStimulus_draw : (takeStimulus s).draw = s.draw := rfl
@[simp] theorem takeStimulus_inputs : (takeStimulus s).inputs = s.inputs.tail := rfl

@[simp] theorem setTone_params : (s.setTone k t).params = s.params := by cases k <;> rfl
@[simp] theorem setTone_cfg : (s.setTone k t).cfg = s.cfg := by cases k <;> rfl
@[simp] theorem setTone_cfgOpen : (s.setTone k t).cfgOpen = s.cfgOpen := by cases k <;> rfl
@[simp] theorem setTone_symLevel : (s.setTone k t).symLevel = s.symLevel := by cases k <;> rfl
@[simp] theorem setTone_symValid : (s.setTone k t).symValid = s.symValid := by cases k <;> rfl
@[simp] theorem setTone_divCnt : (s.setTone k t).divCnt = s.divCnt := by cases k <;> rfl
@[simp] theorem setTone_syncFlag : (s.setTone k t).syncFlag = s.syncFlag := by cases k <;> rfl
@[simp] theorem setTone_bitCount : (s.setTone k t).bitCount = s.bitCount := by cases k <;> rfl
@[simp] theorem setTone_buf : (s.setTone k t).buf = s.buf := by cases k <;> rfl
@[simp] theorem setTone_bitValid : (s.setTone k t).bitValid = s.bitValid := by cases k <;> rfl
@[simp] theorem setTone_bitOut : (s.setTone k t).bitOut = s.bitOut := by cases k <;> rfl
@[simp] theorem setTone_winCode : (s.setTone k t).winCode = s.winCode := by cases k <;> rfl
@[simp] theorem setTone_outcome : (s.setTone k t).outcome = s.outcome := by cases k <;> rfl
@[simp] theorem setTone_activate : (s.setTone k t).activate = s.activate := by cases k <;> rfl
@[simp] theorem setTone_draw : (s.setTone k t).draw = s.draw := by cases k <;> rfl
@[simp] theorem setTone_inputs : (s.setTone k t).inputs = s.inputs := by cases k <;> rfl
theorem setTone_t0 : s.setTone .t0 t = { s with tone0 := t } := rfl
theorem setTone_t1 : s.setTone .t1 t = { s with tone1 := t } := rfl
@[simp] theorem setTone_t0_tone0 : (s.setTone .t0 t).tone0 = t := rfl
@[simp] theorem setTone_t0_tone1 : (s.setTone .t0 t).tone1 = s.tone1 := rfl
@[simp] theorem setTone_t1_tone0 : (s.setTone .t1 t).tone0 = s.tone0 := rfl
@[simp] theorem setTone_t1_tone1 : (s.setTone .t1 t).tone1 = t := rfl
@[simp] theorem tone_t0 : s.tone .t0 = s.tone0 := rfl
@[simp] theorem tone_t1 : s.tone .t1 = s.tone1 := rfl
@[simp] theorem coef_t0 : s.coef .t0 = s.cfg.coef0 := rfl
@[simp] theorem coef_t1 : s.coef .t1 = s.cfg.coef1 := rfl
@[simp] theorem tone_setTone_same : (s.setTone k t).tone k = t := by cases k <;> rfl
@[simp] theorem tone_setTone_other (j : Tone) (h : j ≠ k) : (s.setTone k t).tone j = s.tone j := by
  cases j <;> cases k <;> first | rfl | exact absurd rfl h

@[simp] theorem usedDraws_params (n : Nat) : (usedDraws n s).params = s.params := rfl
@[simp] theorem usedDraws_cfg (n : Nat) : (usedDraws n s).cfg = s.cfg := rfl
@[simp] theorem usedDraws_cfgOpen (n : Nat) : (usedDraws n s).cfgOpen = s.cfgOpen := rfl
@[simp] theorem usedDraws_tone0 (n : Nat) : (usedDraws n s).tone0 = s.tone0 := rfl
@[simp] theorem usedDraws_tone1 (n : Nat) : (usedDraws n s).tone1 = s.tone1 := rfl
@[simp] theorem usedDraws_symLevel (n : Nat) : (usedDraws n s).symLevel = s.symLevel := rfl
@[simp] theorem usedDraws_symValid (n : Nat) : (usedDraws n s).symValid = s.symValid := rfl
@[simp] theorem usedDraws_divCnt (n : Nat) : (usedDraws n s).divCnt = s.divCnt := rfl
@[simp] theorem usedDraws_syncFlag (n : Nat) : (usedDraws n s).syncFlag = s.syncFlag := rfl
@[simp] theorem usedDraws_bitCount (n : Nat) : (usedDraws n s).bitCount = s.bitCount := rfl
@[simp] theorem usedDraws_buf (n : Nat) : (usedDraws n s).buf = s.buf := rfl
@[simp] theorem usedDraws_bitValid (n : Nat) : (usedDraws n s).bitValid = s.bitValid := rfl
@[simp] theorem usedDraws_bitOut (n : Nat) : (usedDraws n s).bitOut = s.bitOut := rfl
@[simp] theorem usedDraws_winCode (n : Nat) : (usedDraws n s).winCode = s.winCode := rfl
@[simp] theorem usedDraws_outcome (n : Nat) : (usedDraws n s).outcome = s.outcome := rfl
@[simp] theorem usedDraws_activate (n : Nat) : (usedDraws n s).activate = s.activate := rfl
@[simp] theorem usedDraws_draw (n : Nat) : (usedDraws n s).draw = s.draw + n := rfl
@[simp] theorem usedDraws_inputs (n : Nat) : (usedDraws n s).inputs = s.inputs := rfl
@[simp] theorem usedDraws_tone (n : Nat) : (usedDraws n s).tone k = s.tone k := by cases k <;> rfl

@[simp] theorem teStep_params : (teStep k x s).params = s.params := by simp [teStep]
@[simp] theorem teStep_cfg : (teStep k x s).cfg = s.cfg := by simp [teStep]
@[simp] theorem teStep_cfgOpen : (teStep k x s).cfgOpen = s.cfgOpen := by simp [teStep]
@[simp] theorem teStep_symLevel : (teStep k x s).symLevel = s.symLevel := by simp [teStep]
@[simp] theorem teStep_symValid : (teStep k x s).symValid = s.symValid := by simp [teStep]
@[simp] theorem teStep_divCnt : (teStep k x s).divCnt = s.divCnt := by simp [teStep]
@[simp] theorem teStep_syncFlag : (teStep k x s).syncFlag = s.syncFlag := by simp [teStep]
@[simp] theorem teStep_bitCount : (teStep k x s).bitCount = s.bitCount := by simp [teStep]
@[simp] theorem teStep_buf : (teStep k x s).buf = s.buf := by simp [teStep]
@[simp] theorem teStep_bitValid : (teStep k x s).bitValid = s.bitValid := by simp [teStep]
@[simp] theorem teStep_bitOut : (teStep k x s).bitOut = s.bitOut := by simp [teStep]
@[simp] theorem teStep_winCode : (teStep k x s).winCode = s.winCode := by simp [teStep]
@[simp] theorem teStep_outcome : (teStep k x s).outcome = s.outcome := by simp [teStep]
@[simp] theorem teStep_activate : (teStep k x s).activate = s.activate := by simp [teStep]
@[simp] theorem teStep_draw : (teStep k x s).draw = s.draw + 3 := by simp [teStep]
@[simp] theorem teStep_inputs : (teStep k x s).inputs = s.inputs := by simp [teStep]

@[simp] theorem teComplete_params : (teComplete k x s).params = s.params := by simp [teComplete]
@[simp] theorem teComplete_cfg : (teComplete k x s).cfg = s.cfg := by simp [teComplete]
@[simp] theorem teComplete_cfgOpen : (teComplete k x s).cfgOpen = s.cfgOpen := by simp [teComplete]
@[simp] theorem teComplete_symLevel : (teComplete k x s).symLevel = s.symLevel := by simp [teComplete]
@[simp] theorem teComplete_symValid : (teComplete k x s).symValid = s.symValid := by simp [teComplete]
@[simp] theorem teComplete_divCnt : (teComplete k x s).divCnt = s.divCnt := by simp [teComplete]
@[simp] theorem teComplete_syncFlag : (teComplete k x s).syncFlag = s.syncFlag := by simp [teComplete]
@[simp] theorem teComplete_bitCount : (teComplete k x s).bitCount = s.bitCount := by simp [teComplete]
@[simp] theorem teComplete_buf : (teComplete k x s).buf = s.buf := by simp [teComplete]
@[simp] theorem teComplete_bitValid : (teComplete k x s).bitValid = s.bitValid := by simp [teComplete]
@[simp] theorem teComplete_bitOut : (teComplete k x s).bitOut = s.bitOut := by simp [teComplete]
@[simp] theorem teComplete_winCode : (teComplete k x s).winCode = s.winCode := by simp [teComplete]
@[simp] theorem teComplete_outcome : (teComplete k x s).outcome = s.outcome := by simp [teComplete]
@[simp] theorem teComplete_activate : (teComplete k x s).activate = s.activate := by simp [teComplete]
@[simp] theorem teComplete_draw : (teComplete k x s).draw = s.draw + 9 := by simp [teComplete]
@[simp] theorem teComplete_inputs : (teComplete k x s).inputs = s.inputs := by simp [teComplete]

@[simp] theorem teStep_tone : (teStep k x s).tone k =
    ⟨advanceOf k x s, advanceOf k x s, (s.tone k).q1, increment Config.cntPastWidth (s.tone k).cnt, (s.tone k).mag⟩ := by simp [teStep]

@[simp] theorem teComplete_tone : (teComplete k x s).tone k =
    ⟨advanceOf k x s, f32Zero, f32Zero, 0, magnitudeOf k x s⟩ := by simp [teComplete]

/-- Neither TE operation touches the other tone. -/
theorem performTe_other (o : TeOp) (j : Tone) (h : j ≠ k) : (performTe o k x s).tone j = s.tone j := by
  cases o <;> simp [performTe, teStep, teComplete, h]

end Sys2Proof.Machine
end

