-- ==== Sys2Proof/Laws/Cycle.lean ====
section
/-! SUPPORT. Once for all: what each path of a cycle, each operation and one step can do. -/

namespace Sys2Proof.Machine

theorem whenLegal_next_iff (s t : State) (r : Result) :
    whenLegal s r = .next t ↔ legalConfig s = true ∧ r = .next t := by
  unfold whenLegal; split <;> simp_all

theorem whenLegal_of_legal (s : State) (r : Result) (h : legalConfig s = true) : whenLegal s r = r := by
  simp [whenLegal, h]

/-- The TE operation of tone `k` in a sample cycle (30_encoding.md R82). -/
def teChoice (s : State) (k : Tone) : TeOp := if (s.tone k).cnt.toNat + 1 = s.cfg.window.toNat then .complete else .step

/-- The SD operation of two magnitudes (30_encoding.md R83). -/
def sdChoice (m0 m1 c : F32) : SdOp :=
  if f32Gt m0 c && f32Lt m1 c then .set0 else if f32Lt m0 c && f32Gt m1 c then .set1 else .hold

/-- The state after both updates of a sample cycle (41_symbol_detector.md R120). -/
def afterUpdates (x : Sample) (s : State) : State :=
  performTe (teChoice s .t1) .t1 x (performTe (teChoice s .t0) .t0 x s)

/-! What each performed operation leaves alone. -/

@[simp] theorem performDv_params (o : DvOp) (s : State) : (performDv o s).params = s.params := by cases o <;> rfl
@[simp] theorem performDv_cfg (o : DvOp) (s : State) : (performDv o s).cfg = s.cfg := by cases o <;> rfl
@[simp] theorem performDv_cfgOpen (o : DvOp) (s : State) : (performDv o s).cfgOpen = s.cfgOpen := by cases o <;> rfl
@[simp] theorem performDv_tone0 (o : DvOp) (s : State) : (performDv o s).tone0 = s.tone0 := by cases o <;> rfl
@[simp] theorem performDv_tone1 (o : DvOp) (s : State) : (performDv o s).tone1 = s.tone1 := by cases o <;> rfl
@[simp] theorem performDv_symLevel (o : DvOp) (s : State) : (performDv o s).symLevel = s.symLevel := by cases o <;> rfl
@[simp] theorem performDv_symValid (o : DvOp) (s : State) : (performDv o s).symValid = s.symValid := by cases o <;> rfl
@[simp] theorem performDv_syncFlag (o : DvOp) (s : State) : (performDv o s).syncFlag = s.syncFlag := by cases o <;> rfl
@[simp] theorem performDv_bitCount (o : DvOp) (s : State) : (performDv o s).bitCount = s.bitCount := by cases o <;> rfl
@[simp] theorem performDv_buf (o : DvOp) (s : State) : (performDv o s).buf = s.buf := by cases o <;> rfl
@[simp] theorem performDv_bitValid (o : DvOp) (s : State) : (performDv o s).bitValid = s.bitValid := by cases o <;> rfl
@[simp] theorem performDv_bitOut (o : DvOp) (s : State) : (performDv o s).bitOut = s.bitOut := by cases o <;> rfl
@[simp] theorem performDv_winCode (o : DvOp) (s : State) : (performDv o s).winCode = s.winCode := by cases o <;> rfl
@[simp] theorem performDv_outcome (o : DvOp) (s : State) : (performDv o s).outcome = s.outcome := by cases o <;> rfl
@[simp] theorem performDv_activate (o : DvOp) (s : State) : (performDv o s).activate = s.activate := by cases o <;> rfl
@[simp] theorem performDv_draw (o : DvOp) (s : State) : (performDv o s).draw = s.draw := by cases o <;> rfl
@[simp] theorem performDv_inputs (o : DvOp) (s : State) : (performDv o s).inputs = s.inputs := by cases o <;> rfl

@[simp] theorem performBs_params (o : BsOp) (s : State) : (performBs o s).params = s.params := by cases o <;> rfl
@[simp] theorem performBs_cfg (o : BsOp) (s : State) : (performBs o s).cfg = s.cfg := by cases o <;> rfl
@[simp] theorem performBs_cfgOpen (o : BsOp) (s : State) : (performBs o s).cfgOpen = s.cfgOpen := by cases o <;> rfl
@[simp] theorem performBs_tone0 (o : BsOp) (s : State) : (performBs o s).tone0 = s.tone0 := by cases o <;> rfl
@[simp] theorem performBs_tone1 (o : BsOp) (s : State) : (performBs o s).tone1 = s.tone1 := by cases o <;> rfl
@[simp] theorem performBs_symLevel (o : BsOp) (s : State) : (performBs o s).symLevel = s.symLevel := by cases o <;> rfl
@[simp] theorem performBs_symValid (o : BsOp) (s : State) : (performBs o s).symValid = s.symValid := by cases o <;> rfl
@[simp] theorem performBs_divCnt (o : BsOp) (s : State) : (performBs o s).divCnt = s.divCnt := by cases o <;> rfl
@[simp] theorem performBs_syncFlag (o : BsOp) (s : State) : (performBs o s).syncFlag = s.syncFlag := by cases o <;> rfl
@[simp] theorem performBs_bitCount (o : BsOp) (s : State) : (performBs o s).bitCount = s.bitCount := by cases o <;> rfl
@[simp] theorem performBs_buf (o : BsOp) (s : State) : (performBs o s).buf = s.buf := by cases o <;> rfl
@[simp] theorem performBs_winCode (o : BsOp) (s : State) : (performBs o s).winCode = s.winCode := by cases o <;> rfl
@[simp] theorem performBs_outcome (o : BsOp) (s : State) : (performBs o s).outcome = s.outcome := by cases o <;> rfl
@[simp] theorem performBs_activate (o : BsOp) (s : State) : (performBs o s).activate = s.activate := by cases o <;> rfl
@[simp] theorem performBs_draw (o : BsOp) (s : State) : (performBs o s).draw = s.draw := by cases o <;> rfl
@[simp] theorem performBs_inputs (o : BsOp) (s : State) : (performBs o s).inputs = s.inputs := by cases o <;> rfl

@[simp] theorem performFd_params (o : FdOp) (s : State) : (performFd o s).params = s.params := by cases o <;> rfl
@[simp] theorem performFd_cfg (o : FdOp) (s : State) : (performFd o s).cfg = s.cfg := by cases o <;> rfl
@[simp] theorem performFd_cfgOpen (o : FdOp) (s : State) : (performFd o s).cfgOpen = s.cfgOpen := by cases o <;> rfl
@[simp] theorem performFd_tone0 (o : FdOp) (s : State) : (performFd o s).tone0 = s.tone0 := by cases o <;> rfl
@[simp] theorem performFd_tone1 (o : FdOp) (s : State) : (performFd o s).tone1 = s.tone1 := by cases o <;> rfl
@[simp] theorem performFd_symLevel (o : FdOp) (s : State) : (performFd o s).symLevel = s.symLevel := by cases o <;> rfl
@[simp] theorem performFd_symValid (o : FdOp) (s : State) : (performFd o s).symValid = s.symValid := by cases o <;> rfl
@[simp] theorem performFd_divCnt (o : FdOp) (s : State) : (performFd o s).divCnt = s.divCnt := by cases o <;> rfl
@[simp] theorem performFd_bitValid (o : FdOp) (s : State) : (performFd o s).bitValid = s.bitValid := by cases o <;> rfl
@[simp] theorem performFd_bitOut (o : FdOp) (s : State) : (performFd o s).bitOut = s.bitOut := by cases o <;> rfl
@[simp] theorem performFd_winCode (o : FdOp) (s : State) : (performFd o s).winCode = s.winCode := by cases o <;> rfl
@[simp] theorem performFd_draw (o : FdOp) (s : State) : (performFd o s).draw = s.draw := by cases o <;> rfl
@[simp] theorem performFd_inputs (o : FdOp) (s : State) : (performFd o s).inputs = s.inputs := by cases o <;> rfl

@[simp] theorem performSd_params (o : SdOp) (s : State) : (performSd o s).params = s.params := by cases o <;> rfl
@[simp] theorem performSd_cfg (o : SdOp) (s : State) : (performSd o s).cfg = s.cfg := by cases o <;> rfl
@[simp] theorem performSd_cfgOpen (o : SdOp) (s : State) : (performSd o s).cfgOpen = s.cfgOpen := by cases o <;> rfl
@[simp] theorem performSd_tone0 (o : SdOp) (s : State) : (performSd o s).tone0 = s.tone0 := by cases o <;> rfl
@[simp] theorem performSd_tone1 (o : SdOp) (s : State) : (performSd o s).tone1 = s.tone1 := by cases o <;> rfl
@[simp] theorem performSd_divCnt (o : SdOp) (s : State) : (performSd o s).divCnt = s.divCnt := by cases o <;> rfl
@[simp] theorem performSd_syncFlag (o : SdOp) (s : State) : (performSd o s).syncFlag = s.syncFlag := by cases o <;> rfl
@[simp] theorem performSd_bitCount (o : SdOp) (s : State) : (performSd o s).bitCount = s.bitCount := by cases o <;> rfl
@[simp] theorem performSd_buf (o : SdOp) (s : State) : (performSd o s).buf = s.buf := by cases o <;> rfl
@[simp] theorem performSd_bitValid (o : SdOp) (s : State) : (performSd o s).bitValid = s.bitValid := by cases o <;> rfl
@[simp] theorem performSd_bitOut (o : SdOp) (s : State) : (performSd o s).bitOut = s.bitOut := by cases o <;> rfl
@[simp] theorem performSd_outcome (o : SdOp) (s : State) : (performSd o s).outcome = s.outcome := by cases o <;> rfl
@[simp] theorem performSd_activate (o : SdOp) (s : State) : (performSd o s).activate = s.activate := by cases o <;> rfl
@[simp] theorem performSd_draw (o : SdOp) (s : State) : (performSd o s).draw = s.draw := by cases o <;> rfl
@[simp] theorem performSd_inputs (o : SdOp) (s : State) : (performSd o s).inputs = s.inputs := by cases o <;> rfl

@[simp] theorem performTe_params (o : TeOp) (k : Tone) (x : Sample) (s : State) : (performTe o k x s).params = s.params := by cases o <;> simp [performTe]
@[simp] theorem performTe_cfg (o : TeOp) (k : Tone) (x : Sample) (s : State) : (performTe o k x s).cfg = s.cfg := by cases o <;> simp [performTe]
@[simp] theorem performTe_cfgOpen (o : TeOp) (k : Tone) (x : Sample) (s : State) : (performTe o k x s).cfgOpen = s.cfgOpen := by cases o <;> simp [performTe]
@[simp] theorem performTe_symLevel (o : TeOp) (k : Tone) (x : Sample) (s : State) : (performTe o k x s).symLevel = s.symLevel := by cases o <;> simp [performTe]
@[simp] theorem performTe_symValid (o : TeOp) (k : Tone) (x : Sample) (s : State) : (performTe o k x s).symValid = s.symValid := by cases o <;> simp [performTe]
@[simp] theorem performTe_divCnt (o : TeOp) (k : Tone) (x : Sample) (s : State) : (performTe o k x s).divCnt = s.divCnt := by cases o <;> simp [performTe]
@[simp] theorem performTe_syncFlag (o : TeOp) (k : Tone) (x : Sample) (s : State) : (performTe o k x s).syncFlag = s.syncFlag := by cases o <;> simp [performTe]
@[simp] theorem performTe_bitCount (o : TeOp) (k : Tone) (x : Sample) (s : State) : (performTe o k x s).bitCount = s.bitCount := by cases o <;> simp [performTe]
@[simp] theorem performTe_buf (o : TeOp) (k : Tone) (x : Sample) (s : State) : (performTe o k x s).buf = s.buf := by cases o <;> simp [performTe]
@[simp] theorem performTe_bitValid (o : TeOp) (k : Tone) (x : Sample) (s : State) : (performTe o k x s).bitValid = s.bitValid := by cases o <;> simp [performTe]
@[simp] theorem performTe_bitOut (o : TeOp) (k : Tone) (x : Sample) (s : State) : (performTe o k x s).bitOut = s.bitOut := by cases o <;> simp [performTe]
@[simp] theorem performTe_winCode (o : TeOp) (k : Tone) (x : Sample) (s : State) : (performTe o k x s).winCode = s.winCode := by cases o <;> simp [performTe]
@[simp] theorem performTe_outcome (o : TeOp) (k : Tone) (x : Sample) (s : State) : (performTe o k x s).outcome = s.outcome := by cases o <;> simp [performTe]
@[simp] theorem performTe_activate (o : TeOp) (k : Tone) (x : Sample) (s : State) : (performTe o k x s).activate = s.activate := by cases o <;> simp [performTe]
@[simp] theorem performTe_inputs (o : TeOp) (k : Tone) (x : Sample) (s : State) : (performTe o k x s).inputs = s.inputs := by cases o <;> simp [performTe]

@[simp] theorem afterUpdates_params (x : Sample) (s : State) : (afterUpdates x s).params = s.params := by simp [afterUpdates]
@[simp] theorem afterUpdates_cfg (x : Sample) (s : State) : (afterUpdates x s).cfg = s.cfg := by simp [afterUpdates]
@[simp] theorem afterUpdates_cfgOpen (x : Sample) (s : State) : (afterUpdates x s).cfgOpen = s.cfgOpen := by simp [afterUpdates]
@[simp] theorem afterUpdates_symLevel (x : Sample) (s : State) : (afterUpdates x s).symLevel = s.symLevel := by simp [afterUpdates]
@[simp] theorem afterUpdates_symValid (x : Sample) (s : State) : (afterUpdates x s).symValid = s.symValid := by simp [afterUpdates]
@[simp] theorem afterUpdates_divCnt (x : Sample) (s : State) : (afterUpdates x s).divCnt = s.divCnt := by simp [afterUpdates]
@[simp] theorem afterUpdates_syncFlag (x : Sample) (s : State) : (afterUpdates x s).syncFlag = s.syncFlag := by simp [afterUpdates]
@[simp] theorem afterUpdates_bitCount (x : Sample) (s : State) : (afterUpdates x s).bitCount = s.bitCount := by simp [afterUpdates]
@[simp] theorem afterUpdates_buf (x : Sample) (s : State) : (afterUpdates x s).buf = s.buf := by simp [afterUpdates]
@[simp] theorem afterUpdates_bitValid (x : Sample) (s : State) : (afterUpdates x s).bitValid = s.bitValid := by simp [afterUpdates]
@[simp] theorem afterUpdates_bitOut (x : Sample) (s : State) : (afterUpdates x s).bitOut = s.bitOut := by simp [afterUpdates]
@[simp] theorem afterUpdates_winCode (x : Sample) (s : State) : (afterUpdates x s).winCode = s.winCode := by simp [afterUpdates]
@[simp] theorem afterUpdates_outcome (x : Sample) (s : State) : (afterUpdates x s).outcome = s.outcome := by simp [afterUpdates]
@[simp] theorem afterUpdates_activate (x : Sample) (s : State) : (afterUpdates x s).activate = s.activate := by simp [afterUpdates]
@[simp] theorem afterUpdates_inputs (x : Sample) (s : State) : (afterUpdates x s).inputs = s.inputs := by simp [afterUpdates]

/-- No bit fires: the divider idles or counts, and the sampler and the decoder do nothing. -/
theorem bitPath_quiet (u : Bool) (s : State) (h : ¬ (u = true ∧ s.divCnt.toNat + 1 = bitPeriod s.cfg)) :
    bitPath u s = .next (fdNobit (bitNone (if u then dvCount s else s))) := by
  unfold bitPath
  rw [decodeDv_vector]
  cases u
  · simp [withSelected, fireOf, decodeBs_vector, decodeFd_vector, fdChoice, performFd, performBs, performDv, dvIdle]
  · have h' : ¬ s.divCnt.toNat + 1 = bitPeriod s.cfg := fun e => h ⟨rfl, e⟩
    simp [h', withSelected, fireOf, decodeBs_vector, decodeFd_vector, fdChoice, performFd, performBs, performDv]

/-- A bit fires: the level goes to `bit_out` and to the decoder. -/
theorem bitPath_fire (s : State) (h : s.divCnt.toNat + 1 = bitPeriod s.cfg) :
    bitPath true s = .next (performFd (fdChoice s true s.symLevel) (bitSample (dvWrap s))) := by
  unfold bitPath
  rw [decodeDv_vector]
  simp [h, withSelected, fireOf, decodeBs_vector, decodeFd_vector, performBs, performDv]

/-- A sample that does not complete both windows. -/
theorem samplePath_within (x : Sample) (s : State) (h : teChoice s .t0 = .step ∨ teChoice s .t1 = .step) :
    samplePath x s = .next (sdNone (afterUpdates x s)) := by
  unfold samplePath
  rw [decodeTe_vector, decodeTe_vector]
  change withSelected (.ok (teChoice s .t0)) (fun te0 => withSelected (.ok (teChoice s .t1)) _) = _
  simp only [withSelected]
  rw [decodeSd_nothing]
  · rfl
  · rcases h with h | h <;> simp [h, updateResult]

/-- A sample that completes both windows: the decision of R121. -/
theorem samplePath_complete (x : Sample) (s : State) (h0 : teChoice s .t0 = .complete) (h1 : teChoice s .t1 = .complete) :
    samplePath x s = .next (performSd
      (sdChoice (magnitudeOf .t0 x s) (magnitudeOf .t1 x (teComplete .t0 x s)) s.cfg.threshold)
      (teComplete .t1 x (teComplete .t0 x s))) := by
  unfold samplePath
  rw [decodeTe_vector, decodeTe_vector]
  change withSelected (.ok (teChoice s .t0)) (fun te0 => withSelected (.ok (teChoice s .t1)) _) = _
  have e0 : ((teComplete .t1 x (teComplete .t0 x s)).tone .t0).mag = magnitudeOf .t0 x s := by
    have := performTe_other (teComplete .t0 x s) .t1 x .complete .t0 (by decide)
    simp only [performTe] at this
    rw [this, teComplete_tone]
  simp only [withSelected, h0, h1, performTe, updateResult, e0, teComplete_tone, decodeSd_vector, sdChoice]

/-- The sample path in one line: it always answers a state. -/
theorem samplePath_next (x : Sample) (s : State) :
    ∃ o, samplePath x s = .next (performSd o (afterUpdates x s)) ∧
      (o = .none ↔ teChoice s .t0 = .step ∨ teChoice s .t1 = .step) := by
  by_cases h : teChoice s .t0 = .step ∨ teChoice s .t1 = .step
  · exact ⟨.none, samplePath_within x s h, by simp [h]⟩
  · have h0 : teChoice s .t0 = .complete := by
      cases e : teChoice s .t0 with
      | step => exact absurd (.inl e) h
      | complete => rfl
    have h1 : teChoice s .t1 = .complete := by
      cases e : teChoice s .t1 with
      | step => exact absurd (.inr e) h
      | complete => rfl
    refine ⟨sdChoice (magnitudeOf .t0 x s) (magnitudeOf .t1 x (teComplete .t0 x s)) s.cfg.threshold, ?_, ?_⟩
    · rw [samplePath_complete x s h0 h1, afterUpdates, h0, h1]; rfl
    · simp only [h, iff_false, sdChoice]
      split
      · simp
      · split <;> simp

/-- The bit path in one line: it always answers a state. -/
theorem bitPath_next (u : Bool) (s : State) :
    ∃ dv bs fd, bitPath u s = .next (performFd fd (performBs bs (performDv dv s))) ∧
      fd = fdChoice s (fireOf dv) s.symLevel ∧
      (fireOf dv = true ↔ u = true ∧ s.divCnt.toNat + 1 = bitPeriod s.cfg) := by
  by_cases h : u = true ∧ s.divCnt.toNat + 1 = bitPeriod s.cfg
  · obtain ⟨rfl, h⟩ := h
    exact ⟨.wrap, .sample, _, bitPath_fire s h, rfl, by simp [fireOf, h]⟩
  · refine ⟨if u then .count else .idle, .none, .nobit, (bitPath_quiet u s h).trans ?_, ?_, ?_⟩
    · cases u <;> rfl
    · cases u <;> simp [fireOf, fdChoice]
    · rw [iff_false_right h]; cases u <;> simp [fireOf]

/-! The updates of the tones, as lemmas: proofs go through these, never by unfolding a TE operation to its arithmetic. -/

theorem legalConfig_congr {s t : State} (hp : t.params = s.params) (hc : t.cfg = s.cfg) : legalConfig t = legalConfig s := by
  simp only [legalConfig, hp, hc]

theorem legalConfig_performTe (o : TeOp) (k : Tone) (x : Sample) (s : State) :
    legalConfig (performTe o k x s) = legalConfig s := legalConfig_congr (by simp) (by simp)

theorem performTe_draw (o : TeOp) (k : Tone) (x : Sample) (s : State) :
    (performTe o k x s).draw = s.draw + (match o with | .step => 3 | .complete => 9) := by
  cases o <;> simp [performTe]

/-- A TE operation touches its tone and the draws alone. -/
theorem performTe_eq (o : TeOp) (k : Tone) (x : Sample) (s : State) :
    performTe o k x s = { s.setTone k ((performTe o k x s).tone k) with draw := (performTe o k x s).draw } := by
  cases o
  · simp only [performTe, teStep_tone, teStep_draw]; simp [teStep, usedDraws]
  · simp only [performTe, teComplete_tone, teComplete_draw]; simp [teComplete, usedDraws]

/-- The SD operations touch no tone. -/
theorem performSd_tone (o : SdOp) (k : Tone) (s : State) : (performSd o s).tone k = s.tone k := by
  cases o <;> cases k <;> rfl

/-- What the advance of a tone reads. -/
theorem advanceOf_congr (k : Tone) (x : Sample) {s t : State} (h1 : s.tone k = t.tone k) (h2 : s.cfg = t.cfg)
    (h3 : s.draw = t.draw) : advanceOf k x s = advanceOf k x t := by
  have hc : s.coef k = t.coef k := by cases k <;> simp [h2]
  simp only [advanceOf, h1, h3, hc]

/-- What the magnitude of a tone reads. -/
theorem magnitudeOf_congr (k : Tone) (x : Sample) {s t : State} (h1 : s.tone k = t.tone k) (h2 : s.cfg = t.cfg)
    (h3 : s.draw = t.draw) : magnitudeOf k x s = magnitudeOf k x t := by
  have hc : s.coef k = t.coef k := by cases k <;> simp [h2]
  simp only [magnitudeOf, h1, h3, hc, advanceOf_congr k x h1 h2 h3]

/-- What a TE operation writes to its tone depends on that tone, the configuration and the draws alone. -/
theorem performTe_congr (o : TeOp) (k : Tone) (x : Sample) {s t : State} (h1 : s.tone k = t.tone k) (h2 : s.cfg = t.cfg)
    (h3 : s.draw = t.draw) : (performTe o k x s).tone k = (performTe o k x t).tone k := by
  cases o <;> simp [performTe, advanceOf_congr k x h1 h2 h3, magnitudeOf_congr k x h1 h2 h3, h1]

/-! The two paths and the operations as functions: every operation is `effect` under a legal configuration. -/

/-- What the bit path of a cycle does (45_cycle.md R201). -/
def bitPart (u : Bool) (s : State) : State :=
  if u = true ∧ s.divCnt.toNat + 1 = bitPeriod s.cfg then
    performFd (fdChoice s true s.symLevel) (bitSample (dvWrap s))
  else fdNobit (bitNone (if u then dvCount s else s))

theorem bitPath_eq (u : Bool) (s : State) : bitPath u s = .next (bitPart u s) := by
  unfold bitPart
  split
  · rename_i h; obtain ⟨rfl, h⟩ := h; exact bitPath_fire s h
  · rename_i h; exact bitPath_quiet u s h

/-- The SD operation of a sample cycle (41_symbol_detector.md R121). -/
def sdSelected (x : Sample) (s : State) : SdOp :=
  if teChoice s .t0 = .complete ∧ teChoice s .t1 = .complete then
    sdChoice (magnitudeOf .t0 x s) (magnitudeOf .t1 x (teComplete .t0 x s)) s.cfg.threshold
  else .none

/-- What the sample path of a cycle does (41_symbol_detector.md R120). -/
def samplePart (x : Sample) (s : State) : State := performSd (sdSelected x s) (afterUpdates x s)

theorem samplePath_eq (x : Sample) (s : State) : samplePath x s = .next (samplePart x s) := by
  unfold samplePart sdSelected
  split
  · rename_i h
    rw [samplePath_complete x s h.1 h.2, afterUpdates, h.1, h.2]; rfl
  · rename_i h
    refine samplePath_within x s ?_
    cases h0 : teChoice s .t0
    · exact .inl rfl
    · cases h1 : teChoice s .t1
      · exact .inr rfl
      · exact absurd ⟨h0, h1⟩ h

@[simp] theorem bitPart_params (u : Bool) (s : State) : (bitPart u s).params = s.params := by
  unfold bitPart; split <;> cases u <;> first | exact performFd_params _ _ | rfl
@[simp] theorem bitPart_cfg (u : Bool) (s : State) : (bitPart u s).cfg = s.cfg := by
  unfold bitPart; split <;> cases u <;> first | exact performFd_cfg _ _ | rfl
@[simp] theorem bitPart_cfgOpen (u : Bool) (s : State) : (bitPart u s).cfgOpen = s.cfgOpen := by
  unfold bitPart; split <;> cases u <;> first | exact performFd_cfgOpen _ _ | rfl
@[simp] theorem bitPart_tone0 (u : Bool) (s : State) : (bitPart u s).tone0 = s.tone0 := by
  unfold bitPart; split <;> cases u <;> first | exact performFd_tone0 _ _ | rfl
@[simp] theorem bitPart_tone1 (u : Bool) (s : State) : (bitPart u s).tone1 = s.tone1 := by
  unfold bitPart; split <;> cases u <;> first | exact performFd_tone1 _ _ | rfl
@[simp] theorem bitPart_symLevel (u : Bool) (s : State) : (bitPart u s).symLevel = s.symLevel := by
  unfold bitPart; split <;> cases u <;> first | exact performFd_symLevel _ _ | rfl
@[simp] theorem bitPart_symValid (u : Bool) (s : State) : (bitPart u s).symValid = s.symValid := by
  unfold bitPart; split <;> cases u <;> first | exact performFd_symValid _ _ | rfl
@[simp] theorem bitPart_winCode (u : Bool) (s : State) : (bitPart u s).winCode = s.winCode := by
  unfold bitPart; split <;> cases u <;> first | exact performFd_winCode _ _ | rfl
@[simp] theorem bitPart_draw (u : Bool) (s : State) : (bitPart u s).draw = s.draw := by
  unfold bitPart; split <;> cases u <;> first | exact performFd_draw _ _ | rfl
@[simp] theorem bitPart_inputs (u : Bool) (s : State) : (bitPart u s).inputs = s.inputs := by
  unfold bitPart; split <;> cases u <;> first | exact performFd_inputs _ _ | rfl
@[simp] theorem samplePart_params (x : Sample) (s : State) : (samplePart x s).params = s.params := by simp [samplePart]
@[simp] theorem samplePart_cfg (x : Sample) (s : State) : (samplePart x s).cfg = s.cfg := by simp [samplePart]
@[simp] theorem samplePart_cfgOpen (x : Sample) (s : State) : (samplePart x s).cfgOpen = s.cfgOpen := by simp [samplePart]
@[simp] theorem samplePart_divCnt (x : Sample) (s : State) : (samplePart x s).divCnt = s.divCnt := by simp [samplePart]
@[simp] theorem samplePart_syncFlag (x : Sample) (s : State) : (samplePart x s).syncFlag = s.syncFlag := by simp [samplePart]
@[simp] theorem samplePart_bitCount (x : Sample) (s : State) : (samplePart x s).bitCount = s.bitCount := by simp [samplePart]
@[simp] theorem samplePart_buf (x : Sample) (s : State) : (samplePart x s).buf = s.buf := by simp [samplePart]
@[simp] theorem samplePart_bitValid (x : Sample) (s : State) : (samplePart x s).bitValid = s.bitValid := by simp [samplePart]
@[simp] theorem samplePart_bitOut (x : Sample) (s : State) : (samplePart x s).bitOut = s.bitOut := by simp [samplePart]
@[simp] theorem samplePart_outcome (x : Sample) (s : State) : (samplePart x s).outcome = s.outcome := by simp [samplePart]
@[simp] theorem samplePart_activate (x : Sample) (s : State) : (samplePart x s).activate = s.activate := by simp [samplePart]
@[simp] theorem performSd_winCode_none (s : State) : (performSd .none s).winCode = 0b00#2 := rfl
@[simp] theorem samplePart_inputs (x : Sample) (s : State) : (samplePart x s).inputs = s.inputs := by simp [samplePart]

/-- What the updates of both tones write depends on the tones, the configuration and the draws alone. -/
theorem afterUpdates_congr (x : Sample) {s t : State} (h0 : s.tone0 = t.tone0) (h1 : s.tone1 = t.tone1) (hc : s.cfg = t.cfg)
    (hd : s.draw = t.draw) : (afterUpdates x s).tone0 = (afterUpdates x t).tone0 ∧
      (afterUpdates x s).tone1 = (afterUpdates x t).tone1 ∧ (afterUpdates x s).draw = (afterUpdates x t).draw := by
  have hk : ∀ k, s.tone k = t.tone k := fun k => by cases k <;> assumption
  have ho : ∀ k, teChoice s k = teChoice t k := fun k => by simp only [teChoice, hk, hc]
  have hd0 : (performTe (teChoice t .t0) .t0 x s).draw = (performTe (teChoice t .t0) .t0 x t).draw := by
    simp only [performTe_draw, hd]
  have h10 : (performTe (teChoice t .t0) .t0 x s).tone .t1 = (performTe (teChoice t .t0) .t0 x t).tone .t1 := by
    rw [performTe_other _ _ _ _ .t1 (by decide), performTe_other _ _ _ _ .t1 (by decide), hk]
  refine ⟨?_, ?_, ?_⟩
  · rw [← tone_t0, ← tone_t0]
    simp only [afterUpdates, ho]
    rw [performTe_other _ .t1 _ _ .t0 (by decide), performTe_other _ .t1 _ _ .t0 (by decide)]
    exact performTe_congr _ _ _ (hk _) hc hd
  · rw [← tone_t1, ← tone_t1]
    simp only [afterUpdates, ho]
    exact performTe_congr _ _ _ h10 (by simp only [performTe_cfg, hc]) hd0
  · simp only [afterUpdates, ho, performTe_draw, hd]

/-- The decision of a sample cycle depends on the tones, the configuration and the draws alone. -/
theorem sdSelected_congr (x : Sample) {s t : State} (h0 : s.tone0 = t.tone0) (h1 : s.tone1 = t.tone1) (hc : s.cfg = t.cfg)
    (hd : s.draw = t.draw) : sdSelected x s = sdSelected x t := by
  have hk : ∀ k, s.tone k = t.tone k := fun k => by cases k <;> assumption
  have ho : ∀ k, teChoice s k = teChoice t k := fun k => by simp only [teChoice, hk, hc]
  have hm : magnitudeOf .t1 x (teComplete .t0 x s) = magnitudeOf .t1 x (teComplete .t0 x t) := by
    refine magnitudeOf_congr _ _ ?_ (by simp only [teComplete_cfg, hc]) (by simp only [teComplete_draw, hd])
    have e : ∀ u : State, (teComplete .t0 x u).tone .t1 = u.tone .t1 := fun u =>
      performTe_other u .t0 x .complete .t1 (by decide)
    rw [e, e, hk]
  simp only [sdSelected, ho, hc, hm, magnitudeOf_congr .t0 x (hk .t0) hc hd]

/-- A decision and the level it finds determine the level it leaves, and the decision alone its code. -/
theorem performSd_congr (o : SdOp) {s t : State} (hl : s.symLevel = t.symLevel) (hv : s.symValid = t.symValid) :
    (performSd o s).symLevel = (performSd o t).symLevel ∧ (performSd o s).symValid = (performSd o t).symValid ∧
      (performSd o s).winCode = (performSd o t).winCode := by
  cases o <;> simp [performSd, sdNone, sdSet0, sdSet1, sdHold, hl, hv]

/-- A cycle without reset (45_cycle.md R201): first the bit path, then the sample path, on cleared strobes. -/
def cyclePart (sample : Option Sample) (u : Bool) (s : State) : State :=
  match sample with
  | none => bitPart u (clearStrobes s)
  | some x => samplePart x (bitPart u (clearStrobes s))

theorem cycle_eq (sample : Option Sample) (u : Bool) (s : State) : cycle sample u s = .next (cyclePart sample u s) := by
  unfold cycle
  rw [bitPath_eq]
  cases sample with
  | none => rfl
  | some x => exact samplePath_eq x _

/-- What each operation does to the state where it is not refused. -/
def effect : Instr → State → State
  | .nop => cyclePart none false
  | .tick => cyclePart none true
  | .sample x => cyclePart (some x) false
  | .sampleTick x => cyclePart (some x) true
  | .reset => resetRegisters
  | .teStep k x => performTe .step k x
  | .teComplete k x => performTe .complete k x
  | .sdNone => performSd .none
  | .sdSet0 => performSd .set0
  | .sdSet1 => performSd .set1
  | .sdHold => performSd .hold
  | .dvIdle => performDv .idle
  | .dvCount => performDv .count
  | .dvWrap => performDv .wrap
  | .bitNone => performBs .none
  | .bitSample => performBs .sample
  | .fdNobit => performFd .nobit
  | .fdIgnore => performFd .ignore
  | .fdSync => performFd .sync
  | .fdStore b => performFd (.store b)
  | .fdAccept b => performFd (.accept b)
  | .fdReject b => performFd (.reject b)
  | .fdOverflow b => performFd (.overflow b)

/-- Every operation: its effect, under a legal configuration. -/
theorem exec_eq (i : Instr) (s : State) : exec i s = whenLegal s (.next (effect i s)) := by
  have hc : ∀ o u, whenLegal s (cycle o u s) = whenLegal s (.next (cyclePart o u s)) := fun o u => by rw [cycle_eq]
  cases i with
  | nop => exact hc _ _
  | tick => exact hc _ _
  | sample x => exact hc _ _
  | sampleTick x => exact hc _ _
  | _ => rfl

/-- An operation answers its effect, exactly under a legal configuration. -/
theorem exec_next_iff (i : Instr) (s t : State) : exec i s = .next t ↔ legalConfig s = true ∧ t = effect i s := by
  rw [exec_eq, whenLegal_next_iff]
  exact and_congr_right fun _ => ⟨fun h => by injection h with h; exact h.symm, fun h => by rw [h]⟩

/-- Whatever an operation answers is its effect. -/
theorem exec_next {i : Instr} {s t : State} (h : exec i s = .next t) : t = effect i s := ((exec_next_iff i s t).1 h).2

/-- Under a legal configuration every operation answers its effect. -/
theorem exec_of_legal (i : Instr) (s : State) (h : legalConfig s = true) : exec i s = .next (effect i s) :=
  (exec_next_iff i s _).2 ⟨h, rfl⟩

/-- Under any other every operation is refused (30_encoding.md R91). -/
theorem exec_of_refused (i : Instr) (s : State) (h : legalConfig s = false) :
    exec i s = .refused .refusedConfiguration := by
  rw [exec_eq, whenLegal]; simp [h]

/-! Each operation under a legal configuration. -/

/-- A cycle's state once the strobes are cleared and no bit fires. -/
def quiet (s : State) : State := fdNobit (bitNone (clearStrobes s))

@[simp] theorem quiet_params (s : State) : (quiet s).params = s.params := rfl
@[simp] theorem quiet_cfg (s : State) : (quiet s).cfg = s.cfg := rfl
@[simp] theorem quiet_cfgOpen (s : State) : (quiet s).cfgOpen = s.cfgOpen := rfl
@[simp] theorem quiet_tone0 (s : State) : (quiet s).tone0 = s.tone0 := rfl
@[simp] theorem quiet_tone1 (s : State) : (quiet s).tone1 = s.tone1 := rfl
@[simp] theorem quiet_symLevel (s : State) : (quiet s).symLevel = s.symLevel := rfl
@[simp] theorem quiet_symValid (s : State) : (quiet s).symValid = s.symValid := rfl
@[simp] theorem quiet_divCnt (s : State) : (quiet s).divCnt = s.divCnt := rfl
@[simp] theorem quiet_syncFlag (s : State) : (quiet s).syncFlag = s.syncFlag := rfl
@[simp] theorem quiet_bitCount (s : State) : (quiet s).bitCount = s.bitCount := rfl
@[simp] theorem quiet_buf (s : State) : (quiet s).buf = s.buf := rfl
@[simp] theorem quiet_draw (s : State) : (quiet s).draw = s.draw := rfl
@[simp] theorem quiet_inputs (s : State) : (quiet s).inputs = s.inputs := rfl
@[simp] theorem quiet_bitValid (s : State) : (quiet s).bitValid = false := rfl
@[simp] theorem quiet_bitOut (s : State) : (quiet s).bitOut = false := rfl
@[simp] theorem quiet_winCode (s : State) : (quiet s).winCode = 0b00#2 := rfl
@[simp] theorem quiet_outcome (s : State) : (quiet s).outcome = 0b00#2 := rfl
@[simp] theorem quiet_activate (s : State) : (quiet s).activate = false := rfl
@[simp] theorem quiet_tone (k : Tone) (s : State) : (quiet s).tone k = s.tone k := by cases k <;> rfl

theorem teChoice_quiet (k : Tone) (s : State) : teChoice (quiet s) k = teChoice s k := by
  simp only [teChoice, quiet_tone]; rfl

theorem exec_te (o : TeOp) (k : Tone) (x : Sample) (s : State) (h : legalConfig s = true) :
    exec (o.toInstr k x) s = .next (performTe o k x s) := by
  cases o <;> exact whenLegal_of_legal s _ h

/-- `v` of R101, written out. -/
theorem advanceOf_eq (k : Tone) (x : Sample) (s : State) : advanceOf k x s =
    f32Sub (s.draw + 2) (f32Add (s.draw + 1) (u2f x) (f32Mul s.draw (s.coef k) (s.tone k).q1)) (s.tone k).q2 := rfl

/-- `m` of R102, written out. -/
theorem magnitudeOf_eq (k : Tone) (x : Sample) (s : State) : magnitudeOf k x s =
    f32Sub (s.draw + 8)
      (f32Add (s.draw + 5) (f32Mul (s.draw + 3) (advanceOf k x s) (advanceOf k x s))
        (f32Mul (s.draw + 4) (s.tone k).q1 (s.tone k).q1))
      (f32Mul (s.draw + 7) (f32Mul (s.draw + 6) (s.coef k) (advanceOf k x s)) (s.tone k).q1) := by
  simp only [magnitudeOf, goertzelMagnitude, Nat.add_assoc, Nat.reduceAdd]

theorem exec_teStep (k : Tone) (x : Sample) (s : State) (h : legalConfig s = true) :
    exec (.teStep k x) s = .next (usedDraws 3 (s.setTone k ⟨advanceOf k x s, advanceOf k x s, (s.tone k).q1,
      increment Config.cntPastWidth (s.tone k).cnt, (s.tone k).mag⟩)) := whenLegal_of_legal s _ h

theorem exec_teComplete (k : Tone) (x : Sample) (s : State) (h : legalConfig s = true) :
    exec (.teComplete k x) s =
      .next (usedDraws 9 (s.setTone k ⟨advanceOf k x s, f32Zero, f32Zero, 0, magnitudeOf k x s⟩)) :=
  whenLegal_of_legal s _ h

theorem exec_nop (s : State) (h : legalConfig s = true) : exec .nop s = .next (quiet s) := by
  refine (whenLegal_of_legal s _ h).trans ?_
  unfold cycle
  rw [bitPath_quiet _ _ (by simp)]; rfl

theorem exec_tick (s : State) (h : legalConfig s = true) : exec .tick s = bitPath true (clearStrobes s) := by
  refine (whenLegal_of_legal s _ h).trans ?_
  unfold cycle
  cases bitPath true (clearStrobes s) <;> rfl

theorem exec_sample (x : Sample) (s : State) (h : legalConfig s = true) :
    exec (.sample x) s = samplePath x (quiet s) := by
  refine (whenLegal_of_legal s _ h).trans ?_
  unfold cycle
  rw [bitPath_quiet _ _ (by simp)]; rfl

theorem exec_sampleTick (x : Sample) (s : State) (h : legalConfig s = true) :
    exec (.sampleTick x) s = andThen (bitPath true (clearStrobes s)) (samplePath x) := whenLegal_of_legal s _ h

/-- The EV operation of a cycle's ports (30_encoding.md R81). -/
def cycleInstr (p : Ports) : Instr :=
  if p.rst then .reset
  else if p.sampleValid then (if p.usTick then .sampleTick p.sample else .sample p.sample)
  else if p.usTick then .tick else .nop

theorem runDecoded_next_iff (i : Instr) (s t : State) :
    runDecoded i s = .next t ↔ i.wellFormed s.params = true ∧ exec i s = .next t := by
  unfold runDecoded; split <;> simp_all

theorem clockCycle_next_iff (p : Ports) (s t : State) :
    clockCycle p s = .next t ↔ cfgHeld p s = true ∧ (cycleInstr p).wellFormed s.params = true ∧
      exec (cycleInstr p) (latchPorts p s) = .next t := by
  have hd : clockCycle p s =
      if cfgHeld p s then runDecoded (cycleInstr p) (latchPorts p s) else .refused .configurationChanged := by
    simp only [clockCycle, evWord, decode, decodeEv_vector, withSelected, cycleInstr]
  rw [hd]
  split
  · rename_i h; rw [runDecoded_next_iff]; simp [h]
  · rename_i h; simp [h]

/-- An operation of format FD, alone. -/
theorem exec_fdOp (o : FdOp) (s : State) : exec o.toInstr s = whenLegal s (.next (performFd o s)) := by
  cases o <;> rfl

theorem frameStep_next_iff (fire b : Bool) (s t : State) :
    frameStep fire b s = .next t ↔ legalConfig s = true ∧
      t = performFd (fdChoice s fire b) { s with cfgOpen := false } := by
  have hw : ∀ o : FdOp, o.toInstr.wellFormed s.params = true := fun o => by cases o <;> rfl
  have hl : legalConfig { s with cfgOpen := false } = legalConfig s := rfl
  simp only [frameStep, decodeFd_vector, withSelected, runDecoded_next_iff, exec_fdOp, whenLegal_next_iff, hw, hl,
    true_and, Host.Outcome.next.injEq]
  exact and_congr_right fun _ => eq_comm

/-- A cycle without reset performs `cycle`. -/
theorem exec_cycleInstr (p : Ports) (s : State) (h : p.rst = false) : exec (cycleInstr p) s =
    whenLegal s (cycle (if p.sampleValid then some p.sample else none) p.usTick s) := by
  unfold cycleInstr
  cases p.sampleValid <;> cases hu : p.usTick <;> simp [h, exec, execNop, execTick, execSample, execSampleTick]

/-- What one step can do: a reset cycle, a cycle of another EV operation under a held configuration, or a step of the
FrameDecoder's interface. -/
theorem step_cases {s t : State} (h : step s = .next t) :
    (∃ p : Ports, nextStimulus s = .cycle p ∧ p.rst = true ∧
      legalConfig (latchPorts p (takeStimulus s)) = true ∧ t = resetRegisters (latchPorts p (takeStimulus s))) ∨
    (∃ p : Ports, nextStimulus s = .cycle p ∧ p.rst = false ∧ (s.cfgOpen = true ∨ p.cfg = s.cfg) ∧
      legalConfig (latchPorts p (takeStimulus s)) = true ∧
      cycle (if p.sampleValid then some p.sample else none) p.usTick (latchPorts p (takeStimulus s)) = .next t) ∨
    (∃ fire b, nextStimulus s = .fd fire b ∧ legalConfig s = true ∧
      t = performFd (fdChoice s fire b) { takeStimulus s with cfgOpen := false }) := by
  unfold step at h
  cases hq : nextStimulus s with
  | cycle p =>
    rw [hq] at h
    obtain ⟨hh, hw, he⟩ := (clockCycle_next_iff _ _ _).1 h
    cases hr : p.rst with
    | true =>
      have hi : cycleInstr p = .reset := by simp [cycleInstr, hr]
      rw [hi] at he
      obtain ⟨hp, rfl⟩ := (exec_next_iff _ _ _).1 he
      exact .inl ⟨p, rfl, hr, hp, rfl⟩
    | false =>
      rw [exec_cycleInstr p _ hr, whenLegal_next_iff] at he
      exact .inr (.inl ⟨p, rfl, hr, by simpa [cfgHeld, hr] using hh, he⟩)
  | fd fire b =>
    rw [hq] at h
    obtain ⟨hl, rfl⟩ := (frameStep_next_iff _ _ _ _).1 h
    exact .inr (.inr ⟨fire, b, rfl, hl, rfl⟩)

end Sys2Proof.Machine
end

