-- ==== Sys2Proof/Laws/Rounding.lean ====
section
/-! SUPPORT. What the one rounding of the model does: it picks the nearest multiple, and what it packs reads back as that
multiple; below the overflow bound the result is finite, from it on an infinity. -/

namespace Sys2Proof.Machine

/-- `roundShift` picks the nearest multiple of `2^d`, and of two equally near ones the even. -/
theorem roundShift_nearest (m d c : Nat) :
    ((roundShift m d * 2 ^ d : Nat) - (m : Nat) : Int).natAbs ≤ ((c * 2 ^ d : Nat) - (m : Nat) : Int).natAbs ∧
    (((roundShift m d * 2 ^ d : Nat) - (m : Nat) : Int).natAbs = ((c * 2 ^ d : Nat) - (m : Nat) : Int).natAbs →
      c ≠ roundShift m d → roundShift m d % 2 = 0) := by
  have hm : m = m / 2 ^ d * 2 ^ d + m % 2 ^ d := by rw [Nat.mul_comm]; exact (Nat.div_add_mod m _).symm
  have hr : m % 2 ^ d < 2 ^ d := Nat.mod_lt _ (Nat.two_pow_pos d)
  unfold roundShift
  generalize m / 2 ^ d = q at *
  generalize m % 2 ^ d = r at *
  generalize 2 ^ d = D at *
  have hc : c < q ∨ c = q ∨ c = q + 1 ∨ q + 2 ≤ c := by omega
  have hlow : c < q → c * D + D ≤ q * D := fun h => by
    have := Nat.mul_le_mul_right D h; rw [Nat.succ_mul] at this; exact this
  have hhigh : q + 2 ≤ c → q * D + D + D ≤ c * D := fun h => by
    have := Nat.mul_le_mul_right D h; rw [Nat.add_mul] at this; omega
  have e1 : (q + 1) * D = q * D + D := Nat.succ_mul q D
  by_cases h : D < 2 * r ∨ 2 * r = D ∧ q % 2 = 1
  · simp only [h, if_true, e1]
    rcases hc with h1 | h1 | h1 | h1
    · have := hlow h1; constructor <;> intros <;> omega
    · subst h1; constructor <;> intros <;> omega
    · subst h1; rw [e1]; constructor <;> intros <;> omega
    · have := hhigh h1; constructor <;> intros <;> omega
  · simp only [h, if_false]
    rcases hc with h1 | h1 | h1 | h1
    · have := hlow h1; constructor <;> intros <;> omega
    · subst h1; constructor <;> intros <;> omega
    · subst h1; rw [e1]; constructor <;> intros <;> omega
    · have := hhigh h1; constructor <;> intros <;> omega

/-- Rounding moves a number between the multiples around it. -/
theorem roundShift_bounds (m d : Nat) : m / 2 ^ d ≤ roundShift m d ∧ roundShift m d ≤ m / 2 ^ d + 1 := by
  unfold roundShift; split <;> omega

/-- The magnitude that bits 30:0 stand for, as `classify_packF32` reads it. -/
def lowMag (low : Nat) : Nat :=
  if low / 2 ^ 23 = 0 then low % 2 ^ 23 else (2 ^ 23 + low % 2 ^ 23) * 2 ^ (low / 2 ^ 23 - 1)

/-- Exponent and fraction as one number read back as the significand shifted. -/
theorem lowMag_pattern (e q : Nat) (hq : q ≤ 2 ^ 24) (he : e = 0 ∨ 2 ^ 23 ≤ q) : lowMag (e * 2 ^ 23 + q) = q * 2 ^ e := by
  have hsmall : q < 2 ^ 23 ∨ (2 ^ 23 ≤ q ∧ q < 2 ^ 24) ∨ q = 2 ^ 24 := by omega
  unfold lowMag
  rcases hsmall with h | h | h
  · have he : e = 0 := by omega
    subst he
    have h1 : (0 * 2 ^ 23 + q) / 2 ^ 23 = 0 := by omega
    rw [if_pos h1]; omega
  · have h1 : (e * 2 ^ 23 + q) / 2 ^ 23 = e + 1 := by omega
    have h2 : 2 ^ 23 + (e * 2 ^ 23 + q) % 2 ^ 23 = q := by omega
    rw [h1, h2, if_neg (by omega)]; rfl
  · have h1 : (e * 2 ^ 23 + q) / 2 ^ 23 = e + 2 := by omega
    have h2 : 2 ^ 23 + (e * 2 ^ 23 + q) % 2 ^ 23 = 2 ^ 23 := by omega
    rw [h1, h2, if_neg (by omega), h]
    have : e + 2 - 1 = e + 1 := rfl
    rw [this, Nat.pow_succ]
    have : (2 : Nat) ^ 24 = 2 ^ 23 * 2 := by norm_num
    rw [this]; ring

/-- What of `m` is kept: 24 bits, and all 24 where more than `k` are dropped. -/
theorem kept_bounds (m k : Nat) :
    m / 2 ^ droppedBits m k < 2 ^ 24 ∧ (k < droppedBits m k → 2 ^ 23 * 2 ^ droppedBits m k ≤ m) := by
  constructor
  · rw [Nat.div_lt_iff_lt_mul (Nat.two_pow_pos _), ← Nat.pow_add]
    rcases Nat.eq_zero_or_pos m with h | h
    · subst h; exact Nat.two_pow_pos _
    · refine Nat.lt_of_lt_of_le Nat.lt_log2_self (Nat.pow_le_pow_right (by norm_num) ?_)
      unfold droppedBits; omega
  · intro h
    have hd : droppedBits m k = Nat.log2 m + 1 - 24 := by unfold droppedBits at *; omega
    have hm : m ≠ 0 := by
      rintro rfl
      have : Nat.log2 0 = 0 := by decide
      omega
    rw [← Nat.pow_add]
    refine Nat.le_trans (Nat.pow_le_pow_right (by norm_num) ?_) (Nat.log2_self_le hm)
    omega

theorem dropped_ge (m k : Nat) : k ≤ droppedBits m k := by unfold droppedBits; omega

/-- The rounded significand keeps 24 bits, all 24 where bits above 2^-149 are dropped. -/
theorem rounded_bounds (m k : Nat) :
    roundShift m (droppedBits m k) ≤ 2 ^ 24 ∧ (droppedBits m k - k = 0 ∨ 2 ^ 23 ≤ roundShift m (droppedBits m k)) := by
  have h1 := roundShift_bounds m (droppedBits m k)
  have h2 := kept_bounds m k
  refine ⟨by omega, ?_⟩
  by_cases h : k < droppedBits m k
  · right
    have := (Nat.le_div_iff_mul_le (Nat.two_pow_pos _)).2 (h2.2 h)
    omega
  · left; omega

/-- Every finite binary32 is 24 bits shifted. -/
theorem finite_shape (y : F32) (w : Bool) (q : Nat) (h : classify y = .finite w q) : ∃ c t, q = c * 2 ^ t ∧ c < 2 ^ 24 := by
  unfold classify at h
  split at h
  · split at h <;> cases h
  · injection h with _ h
    split at h
    · exact ⟨q, 0, by simp, by omega⟩
    · exact ⟨_, _, h.symm, by omega⟩

/-- The rounded number is the nearest of all binary32 magnitudes, a tie having an even significand. -/
theorem rounded_nearest (m k : Nat) (y : F32) (w : Bool) (q : Nat) (h : classify y = .finite w q) :
    ((roundShift m (droppedBits m k) * 2 ^ droppedBits m k : Nat) - (m : Nat) : Int).natAbs ≤
      ((q * 2 ^ k : Nat) - (m : Nat) : Int).natAbs ∧
    (((roundShift m (droppedBits m k) * 2 ^ droppedBits m k : Nat) - (m : Nat) : Int).natAbs =
      ((q * 2 ^ k : Nat) - (m : Nat) : Int).natAbs →
      q * 2 ^ k ≠ roundShift m (droppedBits m k) * 2 ^ droppedBits m k → roundShift m (droppedBits m k) % 2 = 0) := by
  obtain ⟨c, t, rfl, hc⟩ := finite_shape y w q h
  have hk := (kept_bounds m k).2
  generalize droppedBits m k = d at *
  have hq : c * 2 ^ t * 2 ^ k = c * 2 ^ (t + k) := by rw [Nat.mul_assoc, ← Nat.pow_add]
  rw [hq]
  by_cases hd : d ≤ t + k
  · have : c * 2 ^ (t + k) = c * 2 ^ (t + k - d) * 2 ^ d := by
      rw [Nat.mul_assoc, ← Nat.pow_add, Nat.sub_add_cancel hd]
    rw [this]
    have hn := roundShift_nearest m d (c * 2 ^ (t + k - d))
    exact ⟨hn.1, fun h1 h2 => hn.2 h1 fun e => h2 (by rw [e])⟩
  · have h1 : c * 2 ^ (t + k) < 2 ^ 23 * 2 ^ d := by
      have a : c * 2 ^ (t + k) < 2 ^ 24 * 2 ^ (t + k) := Nat.mul_lt_mul_of_pos_right hc (Nat.two_pow_pos _)
      have b : 2 ^ 24 * 2 ^ (t + k) ≤ 2 ^ 23 * 2 ^ d := by
        rw [← Nat.pow_add, ← Nat.pow_add]; exact Nat.pow_le_pow_right (by norm_num) (by omega)
      exact Nat.lt_of_lt_of_le a b
    have h2 := hk (by omega)
    have hn := (roundShift_nearest m d (2 ^ 23)).1
    constructor <;> intros <;> omega

/-- Below the overflow bound the packed number reads back as the rounded one. -/
theorem classify_rounded (neg : Bool) (m k : Nat) (h : m < (2 ^ 25 - 1) * 2 ^ 252 * 2 ^ k) :
    ∃ r, classify (packF32 neg (roundMag m k)) = .finite neg r ∧
      r * 2 ^ k = roundShift m (droppedBits m k) * 2 ^ droppedBits m k ∧
      ((packF32 neg (roundMag m k)).getLsbD 0 = true ↔ roundShift m (droppedBits m k) % 2 = 1) := by
  have hb := rounded_bounds m k
  have hk := kept_bounds m k
  have hge := dropped_ge m k
  have hs := roundShift_bounds m (droppedBits m k)
  have hlow : (droppedBits m k - k) * 2 ^ 23 + roundShift m (droppedBits m k) < 255 * 2 ^ 23 := by
    by_contra hcon
    have he : 253 ≤ droppedBits m k - k := by omega
    have h2 := hk.2 (by omega)
    rcases Nat.lt_or_ge 253 (droppedBits m k - k) with h3 | h3
    · have : 2 ^ 23 * (2 ^ 254 * 2 ^ k) ≤ 2 ^ 23 * 2 ^ droppedBits m k := by
        refine Nat.mul_le_mul_left _ ?_
        rw [← Nat.pow_add]; exact Nat.pow_le_pow_right (by norm_num) (by omega)
      have := Nat.two_pow_pos k
      omega
    · have hd : droppedBits m k = 253 + k := by omega
      rw [hd] at hcon hs hb hk
      have hq : roundShift m (253 + k) = 2 ^ 24 := by omega
      have hqq : m / 2 ^ (253 + k) = 2 ^ 24 - 1 := by omega
      have hm := Nat.div_add_mod m (2 ^ (253 + k))
      have hp : 2 ^ (253 + k) = 2 * (2 ^ 252 * 2 ^ k) := by rw [← Nat.pow_add, ← Nat.pow_succ']; congr 1; omega
      unfold roundShift at hq
      rw [Nat.mul_assoc] at h
      rw [hqq] at hq hm
      rw [hp] at hq hm
      generalize m % (2 * (2 ^ 252 * 2 ^ k)) = r at *
      generalize 2 ^ 252 * 2 ^ k = D at *
      split at hq <;> omega
  have hmag : roundMag m k = (droppedBits m k - k) * 2 ^ 23 + roundShift m (droppedBits m k) := by
    unfold roundMag; omega
  refine ⟨_, classify_packF32 neg _ (by rw [hmag]; exact hlow), ?_, ?_⟩
  · change lowMag (roundMag m k) * 2 ^ k = _
    rw [hmag, lowMag_pattern _ _ hb.1 hb.2, Nat.mul_assoc, ← Nat.pow_add, Nat.sub_add_cancel hge]
  · have h1 := packF32_toNat neg (roundMag m k) (by omega)
    simp only [BitVec.getLsbD, Nat.testBit_zero, decide_eq_true_eq]
    rw [h1, hmag]
    split <;> omega

/-- From the overflow bound on the packed number is an infinity. -/
theorem classify_overflowed (neg : Bool) (m k : Nat) (h : (2 ^ 25 - 1) * 2 ^ 252 * 2 ^ k ≤ m) :
    packF32 neg (roundMag m k) = f32Inf neg := by
  have hb := rounded_bounds m k
  have hk := kept_bounds m k
  have hs := roundShift_bounds m (droppedBits m k)
  rw [Nat.mul_assoc] at h
  have hbig : 255 * 2 ^ 23 ≤ (droppedBits m k - k) * 2 ^ 23 + roundShift m (droppedBits m k) := by
    have hm0 : m ≠ 0 := by have := Nat.two_pow_pos k; omega
    have hlog : 276 + k ≤ Nat.log2 m := by
      refine (Nat.le_log2 hm0).2 (Nat.le_trans ?_ h)
      rw [Nat.pow_add]
      have := Nat.two_pow_pos k
      omega
    have hd : 253 + k ≤ droppedBits m k := by unfold droppedBits; omega
    have h23 : 2 ^ 23 ≤ roundShift m (droppedBits m k) := by omega
    rcases Nat.lt_or_ge (253 + k) (droppedBits m k) with h3 | h3
    · omega
    · have hd : droppedBits m k = 253 + k := by omega
      rw [hd] at hb hk hs h23 ⊢
      have hp : 2 ^ (253 + k) = 2 * (2 ^ 252 * 2 ^ k) := by rw [← Nat.pow_add, ← Nat.pow_succ']; congr 1; omega
      have hq : roundShift m (253 + k) = 2 ^ 24 := by
        by_contra hne
        have hq' : m / 2 ^ (253 + k) < 2 ^ 24 := hk.1
        have hm := Nat.div_add_mod m (2 ^ (253 + k))
        have hr := Nat.mod_lt m (Nat.two_pow_pos (253 + k))
        have hge : 2 ^ 24 - 1 ≤ m / 2 ^ (253 + k) := by
          rw [Nat.le_div_iff_mul_le (Nat.two_pow_pos _), hp]; omega
        have hqq : m / 2 ^ (253 + k) = 2 ^ 24 - 1 := by omega
        unfold roundShift at hne
        rw [hqq] at hne hm
        rw [hp] at hne hm hr
        generalize m % (2 * (2 ^ 252 * 2 ^ k)) = r at *
        generalize 2 ^ 252 * 2 ^ k = D at *
        split at hne
        · exact hne rfl
        · omega
      omega
  have : roundMag m k = 255 * 2 ^ 23 := by unfold roundMag; omega
  rw [this]; rfl

end Sys2Proof.Machine
end

