-- ==== Sys2Proof/Laws/Exact.lean ====
section
/-! SUPPORT. Results that need no rounding: a finite pattern is determined by its sign and magnitude, and adding or subtracting a
zero, or multiplying by one, gives the operand back. -/

namespace Sys2Proof.Machine

/-- Packing what was read gives the bits back. -/
theorem roundMag_lowMag (low : Nat) (h : low < 255 * 2 ^ 23) : roundMag (lowMag low) 0 = low := by
  have hs0 : ∀ c t, roundShift (c * 2 ^ t) t = c := fun c t => by
    unfold roundShift
    rw [Nat.mul_mod_left, Nat.mul_div_cancel _ (Nat.two_pow_pos t)]
    have := Nat.two_pow_pos t
    rw [if_neg (by omega)]
  by_cases he : low / 2 ^ 23 = 0
  · have hl : lowMag low = low := by unfold lowMag; rw [if_pos he]; omega
    have hd : droppedBits low 0 = 0 := by
      unfold droppedBits
      have : Nat.log2 low ≤ 23 := by
        rcases Nat.eq_zero_or_pos low with h0 | h0
        · subst h0; decide
        · exact Nat.le_of_lt_succ ((Nat.log2_lt (by omega)).2 (by omega))
      omega
    have := hs0 low 0
    rw [Nat.pow_zero, Nat.mul_one] at this
    rw [hl]; unfold roundMag; rw [hd, this]; omega
  · have hl : lowMag low = (2 ^ 23 + low % 2 ^ 23) * 2 ^ (low / 2 ^ 23 - 1) := by unfold lowMag; rw [if_neg he]
    have hd : droppedBits (lowMag low) 0 = low / 2 ^ 23 - 1 := by
      have hlog : Nat.log2 (lowMag low) = 23 + (low / 2 ^ 23 - 1) := by
        rw [hl]
        refine (Nat.log2_eq_iff (by positivity)).2 ⟨?_, ?_⟩
        · rw [Nat.pow_add]; exact Nat.mul_le_mul_right _ (by omega)
        · have e : 2 ^ (23 + (low / 2 ^ 23 - 1) + 1) = 2 ^ 24 * 2 ^ (low / 2 ^ 23 - 1) := by
            rw [← Nat.pow_add]; congr 1; omega
          rw [e]; exact Nat.mul_lt_mul_of_pos_right (by omega) (Nat.two_pow_pos _)
      unfold droppedBits; rw [hlog]; omega
    unfold roundMag
    rw [hd, hl, hs0]; omega

/-- Packing the sign and the magnitude of a finite pattern gives the pattern back. -/
theorem packF32_classify (y : F32) (w : Bool) (q : Nat) (h : classify y = .finite w q) : packF32 w (roundMag q 0) = y := by
  have hy := y.isLt
  unfold classify at h
  split at h
  · split at h <;> cases h
  · rename_i hne
    injection h with hw hq
    have hq' : lowMag (y.toNat % 2 ^ 31) = q := by
      rw [← hq]; unfold lowMag
      have h1 : y.toNat % 2 ^ 31 / 2 ^ 23 = y.toNat / 2 ^ 23 % 256 := by omega
      have h2 : y.toNat % 2 ^ 31 % 2 ^ 23 = y.toNat % 2 ^ 23 := by omega
      rw [h1, h2]
    rw [← hq', roundMag_lowMag _ (by omega)]
    apply BitVec.eq_of_toNat_eq
    rw [packF32_toNat _ _ (by omega), ← hw]
    split
    · rename_i hge; rw [decide_eq_true_eq] at hge; omega
    · rename_i hge; rw [decide_eq_true_eq] at hge; omega

/-- A finite pattern is determined by its sign and magnitude. -/
theorem classify_finite_inj (a b : F32) (s : Bool) (m : Nat) (ha : classify a = .finite s m) (hb : classify b = .finite s m) :
    a = b := (packF32_classify a s m ha).symm.trans (packF32_classify b s m hb)

/-- Inverting the sign inverts bit 31 and keeps the fields below it. -/
theorem f32Neg_fields (b : F32) : (f32Neg b).toNat / 2 ^ 23 % 256 = b.toNat / 2 ^ 23 % 256 ∧
    (f32Neg b).toNat % 2 ^ 23 = b.toNat % 2 ^ 23 ∧ decide (2 ^ 31 ≤ (f32Neg b).toNat) = !decide (2 ^ 31 ≤ b.toNat) := by
  have hlow : (f32Neg b).toNat % 2 ^ 31 = b.toNat % 2 ^ 31 := by
    apply Nat.eq_of_testBit_eq
    intro i
    rw [Nat.testBit_mod_two_pow, Nat.testBit_mod_two_pow]
    by_cases hi : i < 31
    · have : Nat.testBit 2147483648 i = false := by
        rw [show (2147483648 : Nat) = 2 ^ 31 from rfl, Nat.testBit_two_pow_of_ne (by omega)]
      simp [f32Neg, hi, this]
    · simp [hi]
  have hmsb : decide (2 ^ 31 ≤ (f32Neg b).toNat) = !decide (2 ^ 31 ≤ b.toNat) := by
    have e : ∀ x : F32, x.msb = decide (2 ^ 31 ≤ x.toNat) := fun x => BitVec.msb_eq_decide x
    rw [← e, ← e, f32Neg, BitVec.msb_xor]
    cases b.msb <;> decide
  exact ⟨by omega, by omega, hmsb⟩

/-- What an inverted sign stands for (f32_sub is an addition of it): a finite value, an infinity and a NaN in turn. -/
theorem classify_f32Neg_eq (b : F32) : classify (f32Neg b) =
    match classify b with
    | .nan => .nan
    | .inf t => .inf (!t)
    | .finite t l => .finite (!t) l := by
  obtain ⟨h1, h2, h3⟩ := f32Neg_fields b
  unfold classify
  rw [h1, h2, h3]
  split <;> split <;> simp_all

/-- The inverted sign of a finite value. -/
theorem classify_f32Neg (b : F32) (t : Bool) (l : Nat) (h : classify b = .finite t l) : classify (f32Neg b) = .finite (!t) l := by
  rw [classify_f32Neg_eq, h]

/-- The inverted sign of an infinity. -/
theorem classify_f32Neg_inf (b : F32) (t : Bool) (h : classify b = .inf t) : classify (f32Neg b) = .inf (!t) := by
  rw [classify_f32Neg_eq, h]

/-- An inverted sign is a NaN exactly where the operand is. -/
theorem isNaN_f32Neg (b : F32) : isNaN (f32Neg b) = isNaN b := by
  unfold isNaN; rw [classify_f32Neg_eq]; cases classify b <;> rfl

/-- A magnitude with an inverted sign. -/
theorem signed_not (t : Bool) (l : Nat) : signed (!t) l = -signed t l := by cases t <;> simp [signed]

/-- Adding a zero to a finite value with a positive sign. -/
theorem f32Add_zero (n : Nat) (a b : F32) (m : Nat) (t : Bool) (ha : classify a = .finite false m)
    (hb : classify b = .finite t 0) : f32Add n a b = a := by
  have hv : signed false m + signed t 0 = (m : Int) := by cases t <;> simp [signed]
  have hf : f32Add n a b = if (m : Int) = 0 then packF32 (false && t) 0
      else packF32 (decide ((m : Int) < 0)) (roundMag (m : Int).natAbs 0) := by
    rw [← hv]; simp only [f32Add, ha, hb]
  rw [hf]
  split
  · rename_i h0
    have hm : m = 0 := by omega
    subst hm
    exact classify_finite_inj _ _ false 0 (by simp only [Bool.false_and]; decide) ha
  · have h1 : decide ((m : Int) < 0) = false := by simp
    rw [h1]
    exact packF32_classify a false m ha

/-- Subtracting a zero from a finite value with a positive sign. -/
theorem f32Sub_zero (n : Nat) (a b : F32) (m : Nat) (t : Bool) (ha : classify a = .finite false m)
    (hb : classify b = .finite t 0) : f32Sub n a b = a := f32Add_zero n a _ m _ ha (classify_f32Neg b t 0 hb)

/-- A finite value times a zero is a zero. -/
theorem f32Mul_zero (n : Nat) (a b : F32) (s t : Bool) (m : Nat) (ha : classify a = .finite s m)
    (hb : classify b = .finite t 0) : classify (f32Mul n a b) = .finite (s != t) 0 := by
  have : f32Mul n a b = packF32 (s != t) (roundMag 0 149) := by simp only [f32Mul, ha, hb, Nat.mul_zero]
  rw [this]
  have h0 : roundMag 0 149 = 0 := by decide
  rw [h0]
  cases s <;> cases t <;> decide

/-- A product of finite values draws no NaN pattern. -/
theorem f32Mul_draw (n n' : Nat) (a b : F32) (s t : Bool) (m l : Nat) (ha : classify a = .finite s m)
    (hb : classify b = .finite t l) : f32Mul n a b = f32Mul n' a b := by simp only [f32Mul, ha, hb]

/-- The square of a value below the overflow bound is finite and has a positive sign. -/
theorem f32Mul_self (n : Nat) (a : F32) (s : Bool) (m : Nat) (h : classify a = .finite s m)
    (hb : m * m < (2 ^ 25 - 1) * 2 ^ 252 * 2 ^ 149) : ∃ l, classify (f32Mul n a a) = .finite false l := by
  obtain ⟨r, h1, _⟩ := classify_rounded (s != s) (m * m) 149 hb
  refine ⟨r, ?_⟩
  have h2 : f32Mul n a a = packF32 (s != s) (roundMag (m * m) 149) := by simp only [f32Mul, h]
  rw [h2, h1, bne_self_eq_false]

end Sys2Proof.Machine
end

