-- ==== Sys2Proof/Laws/FrameBuffer.lean ====
section
/-! SUPPORT. The frame buffer: no access changes its length, and what an assigned bit of a byte reads as. -/

namespace Sys2Proof.Machine

@[simp] theorem bufWrite_length (buf : List Byte) (j : Nat) (b : Bool) : (bufWrite buf j b).length = buf.length := by
  simp [bufWrite]

@[simp] theorem nextBuf_length (s : State) (b : Bool) : (nextBuf s b).length = s.buf.length := by
  unfold nextBuf; split <;> simp

@[simp] theorem clearedBuf_length (s : State) : (clearedBuf s).length = s.params.codeBytes := by simp [clearedBuf]

@[simp] theorem rcBytes_length (s : State) : (rcBytes s).length = s.params.codeBytes := by simp [rcBytes]

/-- An assigned bit reads as assigned, and the seven others as before. -/
theorem setBit_getLsbD (v : Byte) (i j : Nat) (b : Bool) (hi : i < 8) :
    (setBit v i b).getLsbD j = if j = i then b else v.getLsbD j := by
  unfold setBit
  by_cases hj : j < 8
  · cases b <;> by_cases h : j = i <;>
      simp [h, hj, hi] <;> omega
  · have h : j ≠ i := by omega
    simp only [h, if_false]
    rw [BitVec.getLsbD_of_ge _ _ (by omega), BitVec.getLsbD_of_ge _ _ (by omega)]

/-- The payload index is the cursor less one, wherever that is a number (43_frame_decoder.md R161). -/
theorem payloadIndex_of_pos (s : State) (h : 1 ≤ s.bitCount) : payloadIndex s = s.bitCount - 1 := by
  unfold payloadIndex
  cases hb : s.bitCount with
  | zero => omega
  | succ j => rfl

end Sys2Proof.Machine
end

