-- ==== Sys2Proof/Laws/PerInstr.lean ====
section
/-! SUPPORT. The per-operation family EncodesItsRow: the encoder's word has the width and the pattern of the operation's row. -/

/-- The word of `i` is as wide as its row of spec/opcode_table.json and has its pattern (30_encoding.md R81 to R86). -/
def Sys2Proof.Laws.EncodesItsRow.Statement (i : Sys2Proof.Instr) : Prop :=
  (Sys2Proof.encode i).width = i.row.width ∧ i.row.hits (Sys2Proof.encode i).bits = true

namespace Sys2Proof.Laws.EncodesItsRow

theorem nop : Statement .nop := ⟨rfl, by decide⟩
theorem tick : Statement .tick := ⟨rfl, by decide⟩
theorem sample (x : Sample) : Statement (.sample x) := ⟨rfl, by simp [TableRow.hits, Instr.row, encode, SelectWord.bits]⟩
theorem sampleTick (x : Sample) : Statement (.sampleTick x) := ⟨rfl, by simp [TableRow.hits, Instr.row, encode, SelectWord.bits]⟩
theorem reset : Statement .reset := ⟨rfl, by decide⟩
theorem teStep (k : Tone) (x : Sample) : Statement (.teStep k x) := ⟨rfl, by simp [TableRow.hits, Instr.row, encode, SelectWord.bits]⟩
theorem teComplete (k : Tone) (x : Sample) : Statement (.teComplete k x) := ⟨rfl, by simp [TableRow.hits, Instr.row, encode, SelectWord.bits]⟩
theorem sdNone : Statement .sdNone := ⟨rfl, by decide⟩
theorem sdSet0 : Statement .sdSet0 := ⟨rfl, by decide⟩
theorem sdSet1 : Statement .sdSet1 := ⟨rfl, by decide⟩
theorem sdHold : Statement .sdHold := ⟨rfl, by decide⟩
theorem dvIdle : Statement .dvIdle := ⟨rfl, by decide⟩
theorem dvCount : Statement .dvCount := ⟨rfl, by decide⟩
theorem dvWrap : Statement .dvWrap := ⟨rfl, by decide⟩
theorem bitNone : Statement .bitNone := ⟨rfl, by decide⟩
theorem bitSample : Statement .bitSample := ⟨rfl, by decide⟩
theorem fdNobit : Statement .fdNobit := ⟨rfl, by decide⟩
theorem fdIgnore : Statement .fdIgnore := ⟨rfl, by decide⟩
theorem fdSync : Statement .fdSync := ⟨rfl, by decide⟩
theorem fdStore (b : Bool) : Statement (.fdStore b) := ⟨rfl, by cases b <;> decide⟩
theorem fdAccept (b : Bool) : Statement (.fdAccept b) := ⟨rfl, by cases b <;> decide⟩
theorem fdReject (b : Bool) : Statement (.fdReject b) := ⟨rfl, by cases b <;> decide⟩
theorem fdOverflow (b : Bool) : Statement (.fdOverflow b) := ⟨rfl, by cases b <;> decide⟩

end Sys2Proof.Laws.EncodesItsRow
end

