-- ==== Sys2Proof/Laws/Registers.lean ====
section
/-! SUPPORT. The counters: what an increment leaves in a register, and that `bit_count` keeps within BC_BITS bits. -/

namespace Sys2Proof.Machine

/-- Where the sum fits, an increment is the register plus one. -/
theorem increment_eq {n : Nat} (past c : BitVec n) (h : c.toNat + 1 < 2 ^ n) : increment past c = c + 1 := if_pos h

/-- Where the sum fits, an increment is the number plus one: nothing wraps (00_scope.md R9). -/
theorem increment_toNat {n : Nat} (past c : BitVec n) (h : c.toNat + 1 < 2 ^ n) :
    (increment past c).toNat = c.toNat + 1 := by
  have h1 : 1 % 2 ^ n = 1 := Nat.mod_eq_of_lt (by omega)
  rw [increment_eq past c h, BitVec.toNat_add]
  simp [h1, Nat.mod_eq_of_lt h]

/-- BC_BITS bits hold 8L + 1 (00_scope.md R6, 10_state.md R31). -/
theorem frame_lt_bcBits (codeBytes : Nat) : 8 * codeBytes + 1 < 2 ^ bcBits codeBytes := Nat.lt_log2_self

/-- Inside a frame the cursor advances by one. -/
theorem nextBitCount_eq (s : State) (h : s.bitCount ≤ 8 * s.params.codeBytes) : nextBitCount s = s.bitCount + 1 :=
  if_pos (by have := frame_lt_bcBits s.params.codeBytes; omega)

/-- Whatever the cursor was, what is written to it has BC_BITS bits. -/
theorem nextBitCount_lt (s : State) : nextBitCount s < 2 ^ bcBits s.params.codeBytes := by
  unfold nextBitCount
  split
  · assumption
  · exact Nat.mod_lt _ (Nat.two_pow_pos _)

end Sys2Proof.Machine
end

