-- ==== Sys2Proof/Laws/Run.lean ====
section
/-! SUPPORT. Runs of several steps, and the step a given stimulus makes. -/

namespace Sys2Proof.Machine

/-- `k` steps of the machine. -/
def runFor (k : Nat) (s : State) : Result := Host.Core.run core k s

theorem runFor_eq (k : Nat) (s : State) : Host.Core.run core k s = runFor k s := rfl

@[simp] theorem runFor_zero (s : State) : runFor 0 s = .next s := by
  simp only [runFor, Host.Core.run]; rfl

/-- One step, then the others. -/
theorem runFor_succ (k : Nat) (s : State) : runFor (k + 1) s = andThen (step s) (runFor k) := by
  have h : core.step s = step s := rfl
  simp only [runFor, Host.Core.run, h]
  cases step s <;> rfl

/-- A run that answers a state goes on from it. -/
theorem runFor_add (a b : Nat) (s t : State) (h : runFor a s = .next t) : runFor (a + b) s = runFor b t := by
  induction a generalizing s with
  | zero => rw [runFor_zero] at h; injection h with h; subst h; rw [Nat.zero_add]
  | succ a ih =>
    rw [runFor_succ] at h
    rw [show a + 1 + b = a + b + 1 by omega, runFor_succ]
    cases hs : step s with
    | next u => rw [hs] at h; exact ih u h
    | fault e => cases e
    | refused e => rw [hs] at h; cases h

/-- A step at the FrameDecoder's interface under a legal configuration. -/
theorem step_fd (s : State) (fire b : Bool) (rest : List Stimulus) (hl : legalConfig s = true)
    (hi : s.inputs = .fd fire b :: rest) :
    step s = .next (performFd (fdChoice s fire b) { s with inputs := rest, cfgOpen := false }) := by
  unfold step nextStimulus takeStimulus
  rw [hi]
  exact (frameStep_next_iff fire b { s with inputs := rest } _).2 ⟨hl, rfl⟩

/-- A clock cycle whose configuration is held and whose sample its port carries. -/
theorem step_cycle (s : State) (p : Ports) (rest : List Stimulus) (hi : s.inputs = .cycle p :: rest)
    (hc : cfgHeld p s = true) (hw : (cycleInstr p).wellFormed s.params = true) :
    step s = exec (cycleInstr p) { s with inputs := rest, cfg := p.cfg, cfgOpen := p.rst } := by
  have hs : step s = clockCycle p { s with inputs := rest } := by
    unfold step nextStimulus takeStimulus; rw [hi]; rfl
  rw [hs]
  have hc' : cfgHeld p { s with inputs := rest } = true := hc
  simp only [clockCycle, hc', if_true, evWord, decode, decodeEv_vector, withSelected]
  unfold runDecoded
  exact if_pos hw

end Sys2Proof.Machine
end

