-- ==== Sys2Proof/Tests/Slice0.lean ====
section
/-! SUPPORT. The model's own tests: expected results are the spec's, mostly vectors of 95_test_vectors.md, named in the comments; and
for every obligation with hypotheses a witness that meets them. -/

namespace Sys2Proof.Machine

/-! ## Well-formedness: an ill-formed sample for each operation that reads one -/

/-- 256 does not fit the 8-bit port (R209: "any value below 2^SAMPLE_BITS"). -/
theorem test_wf_sample : (Instr.sample 256#24).wellFormed ⟨8, 2⟩ = false ∧ (Instr.sample 255#24).wellFormed ⟨8, 2⟩ = true := by decide
theorem test_wf_sampleTick : (Instr.sampleTick 256#24).wellFormed ⟨8, 2⟩ = false := by decide
theorem test_wf_teStep : (Instr.teStep .t0 256#24).wellFormed ⟨8, 2⟩ = false := by decide
theorem test_wf_teComplete : (Instr.teComplete .t1 0x800000#24).wellFormed ⟨23, 1⟩ = false := by decide

/-! ## Decoding: words written out from the patterns of 30_encoding.md R81 to R86 -/

/-- R81: `000`, `001`, `010`, `011`, `1xx`. -/
theorem test_decode_ev : decode (.ev 0b000#3 9) = .ok .nop ∧ decode (.ev 0b001#3 9) = .ok .tick ∧
    decode (.ev 0b010#3 9) = .ok (.sample 9) ∧ decode (.ev 0b011#3 9) = .ok (.sampleTick 9) ∧
    decode (.ev 0b100#3 9) = .ok .reset ∧ decode (.ev 0b101#3 9) = .ok .reset ∧ decode (.ev 0b110#3 9) = .ok .reset ∧
    decode (.ev 0b111#3 9) = .ok .reset := by decide
/-- R82: `0`, `1`. -/
theorem test_decode_te : decode (.te 0b0#1 .t1 7) = .ok (.teStep .t1 7) ∧
    decode (.te 0b1#1 .t0 7) = .ok (.teComplete .t0 7) := by decide
/-- R83 with the vectors of SD-1 to SD-7 and SD-11. -/
theorem test_decode_sd : decode (.sd 0b11001#5) = .ok .sdSet0 ∧ decode (.sd 0b10110#5) = .ok .sdSet1 ∧
    decode (.sd 0b11010#5) = .ok .sdHold ∧ decode (.sd 0b10101#5) = .ok .sdHold ∧ decode (.sd 0b10100#5) = .ok .sdHold ∧
    decode (.sd 0b10001#5) = .ok .sdHold ∧ decode (.sd 0b10000#5) = .ok .sdHold ∧ decode (.sd 0b01001#5) = .ok .sdNone := by decide
/-- R84: `0x`, `10`, `11`. -/
theorem test_decode_dv : decode (.dv 0b00#2) = .ok .dvIdle ∧ decode (.dv 0b01#2) = .ok .dvIdle ∧
    decode (.dv 0b10#2) = .ok .dvCount ∧ decode (.dv 0b11#2) = .ok .dvWrap := by decide
/-- R85: `0`, `1`. -/
theorem test_decode_bs : decode (.bs 0b0#1) = .ok .bitNone ∧ decode (.bs 0b1#1) = .ok .bitSample := by decide
/-- R86: one word of each pattern, with the bits it leaves open at 1. -/
theorem test_decode_fd : decode (.fd 0b011111#6) = .ok .fdNobit ∧ decode (.fd 0b100111#6) = .ok .fdIgnore ∧
    decode (.fd 0b101111#6) = .ok .fdSync ∧ decode (.fd 0b110001#6) = .ok (.fdStore false) ∧
    decode (.fd 0b111000#6) = .ok (.fdStore true) ∧ decode (.fd 0b111101#6) = .ok (.fdAccept true) ∧
    decode (.fd 0b110100#6) = .ok (.fdReject false) ∧ decode (.fd 0b111011#6) = .ok (.fdOverflow true) := by decide
/-- R92: the unreachable vectors are refused. -/
theorem test_decode_refused : decode (.sd 0b11100#5) = .error .gtAndLt ∧ decode (.sd 0b10011#5) = .error .gtAndLt ∧
    decode (.fd 0b110110#6) = .error .endAndOver ∧ decode (.fd 0b111111#6) = .error .endAndOver := by decide
/-- Numbered words: a format's own width, and whole bytes (assumption log 13). -/
theorem test_decode_numbered : decodeTableWord 3 0b101 = some .reset ∧ decodeTableWord 1 1 = some (.teComplete .t0 0) ∧
    decodeTableWord 5 0b11001 = some .sdSet0 ∧ decodeTableWord 2 0b11 = some .dvWrap ∧
    decodeTableWord 6 0b110101 = some (.fdAccept false) ∧ decodeTableWord 8 0b101000 = some .fdSync ∧
    decodeTableWord 8 0b1000000 = none := by decide

/-! ## States -/

/-- The configuration of programs P3 to P5 and of CY-1 to CY-8 of 95_test_vectors.md, running. -/
def testChip : State :=
  { State.resetFor ⟨8, 1⟩ ⟨0xC0000000#32, 0x00000000#32, 0x42000000#32, 4#16, 250000#20, 0xA5⟩ with cfgOpen := false }

/-- The FrameDecoder of FD-1 to FD-9: L = 2, rc = AA AA, with the given sync flag, cursor and buffer. -/
def testDecoder (sync : Bool) (n : Nat) (buf : List Byte) : State :=
  { State.reset with cfgOpen := false, syncFlag := sync, bitCount := n, buf := buf }

/-- "window so far 4, 0, 4" (CY-4). -/
def testLastSample : State :=
  { testChip with
    tone0 := ⟨0x41800000#32, 0x41800000#32, 0xC1000000#32, 3, f32Zero⟩
    tone1 := ⟨f32Zero, f32Zero, f32Zero, 3, f32Zero⟩ }

/-- What `f` reads in the state an operation answers. -/
def after {α : Type} (f : State → α) (i : Instr) (s : State) : Option α :=
  match exec i s with
  | .next t => some (f t)
  | _ => none

/-- What `f` reads in the state a step answers. -/
def afterStep {α : Type} (f : State → α) (s : State) : Option α :=
  match step s with
  | .next t => some (f t)
  | _ => none

/-- Sync flag, cursor, buffer, outcome and activate, as the FD vectors list them. -/
def frameView (s : State) : Bool × Nat × List Byte × BitVec 2 × Bool := (s.syncFlag, s.bitCount, s.buf, s.outcome, s.activate)

/-! ## Binary32 and the tone estimators -/

/-- R101, example. -/
theorem test_te_step : after (fun t => t.tone0) (.teStep .t0 0#24)
    { testChip with tone0 := ⟨0x40800000#32, 0x40800000#32, f32Zero, 1, f32Zero⟩ } =
      some ⟨0xC1000000#32, 0xC1000000#32, 0x40800000#32, 2, f32Zero⟩ := by decide +kernel
/-- TE-12, sample 3: 1.9·739.5 + 255 - 255 is rounded. -/
theorem test_te_step_rounds : after (fun t => t.tone1.q0) (.teStep .t1 255#24)
    { testChip with
      cfg := { testChip.cfg with coef1 := 0x3FF33333#32 }
      tone1 := ⟨0x4438E000#32, 0x4438E000#32, 0x437F0000#32, 2, f32Zero⟩ } = some 0x44AFA199#32 := by decide +kernel
/-- R102, example; q0 is not cleared (TE-24). -/
theorem test_te_complete : after (fun t => t.tone0) (.teComplete .t0 0#24) testLastSample =
    some ⟨0xC1C00000#32, f32Zero, f32Zero, 0, 0x42800000#32⟩ := by decide +kernel
/-- TE-13, sample 6. -/
theorem test_te_complete_rounds : after (fun t => (t.tone0.q0, t.tone0.mag)) (.teComplete .t0 91#24)
    { testChip with
      cfg := { testChip.cfg with coef0 := 0x3F1E377A#32 }
      tone0 := ⟨0x42C20523#32, 0x42C20523#32, 0x42BD1BBC#32, 3, f32Zero⟩ } = some (0x42619AF8#32, 0x460FE9F2#32) := by decide +kernel
/-- TE-18, sample 1: +∞ · +0.0 is a NaN, which propagates; whatever pattern is drawn. -/
theorem test_te_nan : (exec (.teStep .t0 1#24) { testChip with cfg := { testChip.cfg with coef0 := 0x7F800000#32 } }) =
    .next { testChip with
      cfg := { testChip.cfg with coef0 := 0x7F800000#32 }, draw := 3
      tone0 := ⟨drawnNaN 2, drawnNaN 2, f32Zero, 1, f32Zero⟩ } := by
  have h0 : f32Mul 0 0x7F800000#32 f32Zero = drawnNaN 0 := rfl
  have h1 : f32Add 1 (u2f 1#24) (drawnNaN 0) = drawnNaN 1 := by simp only [f32Add, classify_drawnNaN]; rfl
  have h2 : f32Add 2 (drawnNaN 1) (f32Neg f32Zero) = drawnNaN 2 := by simp only [f32Add, classify_drawnNaN]
  have h3 : advanceOf .t0 1#24 { testChip with cfg := { testChip.cfg with coef0 := 0x7F800000#32 } } = drawnNaN 2 := by
    unfold advanceOf goertzelAdvance f32Sub
    exact (congrArg (fun y => f32Add 2 y (f32Neg f32Zero)) ((congrArg (f32Add 1 (u2f 1#24)) h0).trans h1)).trans h2
  change Host.Outcome.next (teStep .t0 1#24 _) = _
  unfold teStep
  rw [h3]; rfl

/-! ## The symbol detector -/

/-- SD-11: nothing but `win_code` = 00. -/
theorem test_sd_none : after (fun t => (t.symLevel, t.symValid, t.winCode)) .sdNone
    { testChip with symLevel := true, symValid := true, winCode := 0b11#2 } = some (true, true, 0b00#2) := by decide
/-- SD-1. -/
theorem test_sd_set0 : after (fun t => (t.symLevel, t.symValid, t.winCode)) .sdSet0
    { testChip with symLevel := true, symValid := true } = some (false, true, 0b01#2) := by decide
/-- R124 from the reset level. -/
theorem test_sd_set1 : after (fun t => (t.symLevel, t.symValid, t.winCode)) .sdSet1 testChip = some (true, true, 0b10#2) := by decide
/-- SD-8: a hold does not raise `sym_valid`. -/
theorem test_sd_hold : after (fun t => (t.symLevel, t.symValid, t.winCode)) .sdHold testChip = some (false, false, 0b11#2) := by decide
/-- The vectors of SD-1 to SD-6 and SD-8, from their magnitudes; T = 32.0 but for SD-8. -/
theorem test_sd_vectors :
    sdVector (some 0x42800000#32) (some f32Zero) 0x42000000#32 = 0b11001#5 ∧
    sdVector (some f32Zero) (some 0x43000000#32) 0x42000000#32 = 0b10110#5 ∧
    sdVector (some 0x42800000#32) (some 0x42800000#32) 0x42000000#32 = 0b11010#5 ∧
    sdVector (some f32Zero) (some f32Zero) 0x42000000#32 = 0b10101#5 ∧
    sdVector (some f32Zero) (some 0x42000000#32) 0x42000000#32 = 0b10100#5 ∧
    sdVector (some 0x42000000#32) (some f32Zero) 0x42000000#32 = 0b10001#5 ∧
    sdVector (some 0x42800000#32) (some f32Zero) 0x7FC00000#32 = 0b10000#5 := by decide +kernel
/-- SD-7 and SD-9: a NaN and +∞ as m0. -/
theorem test_sd_vectors_special :
    sdVector (some 0x7FC00000#32) (some f32Zero) 0x42000000#32 = 0b10001#5 ∧
    sdVector (some 0x7F800000#32) (some f32Zero) 0x42000000#32 = 0b11001#5 := by decide +kernel

/-! ## The divider and the sampler -/

/-- DV-1 to DV-11. -/
theorem test_bit_period : ([1#20, 2#20, 3#20, 1200#20, 2400#20, 250000#20, 300000#20, 333334#20, 500000#20, 500001#20, 1000000#20].map
    fun r => bitPeriod { Cfg.initial with bitRate := r }) = [1000000, 500000, 333333, 833, 416, 4, 3, 2, 2, 1, 1] := by decide
/-- DV-12, DV-13: refused. -/
theorem test_rate_refused : cfgLegal ⟨8, 2⟩ { Cfg.initial with bitRate := 0#20 } = false ∧
    cfgLegal ⟨8, 2⟩ { Cfg.initial with bitRate := 1000001#20 } = false := by decide
/-- DV-17. -/
theorem test_dv_idle : after (fun t => t.divCnt) .dvIdle { testChip with divCnt := 2 } = some 2 := by decide
/-- DV-15. -/
theorem test_dv_count : after (fun t => t.divCnt) .dvCount { testChip with divCnt := 2 } = some 3 := by decide
/-- DV-16. -/
theorem test_dv_wrap : after (fun t => t.divCnt) .dvWrap { testChip with divCnt := 3 } = some 0 := by decide
/-- BS-5. -/
theorem test_bit_none : after (fun t => (t.bitValid, t.bitOut, t.symLevel)) .bitNone
    { testChip with bitValid := true, bitOut := true, symLevel := true } = some (false, false, true) := by decide
/-- BS-1. -/
theorem test_bit_sample : after (fun t => (t.bitValid, t.bitOut)) .bitSample { testChip with symLevel := true } =
    some (true, true) := by decide

/-! ## The frame decoder -/

/-- FD-1; the strobes of the cycle before are cleared (R204). -/
theorem test_fd_nobit : after frameView .fdNobit { testDecoder true 5 [0xA0, 0x00] with outcome := 0b10#2 } =
    some (true, 5, [0xA0, 0x00], 0b00#2, false) := by decide
/-- FD-2. -/
theorem test_fd_ignore : after frameView .fdIgnore { testDecoder false 0 [0x00, 0x00] with outcome := 0b01#2, activate := true } =
    some (false, 0, [0x00, 0x00], 0b00#2, false) := by decide
/-- FD-3. -/
theorem test_fd_sync : after frameView .fdSync (testDecoder false 0 [0x00, 0x00]) = some (true, 1, [0x00, 0x00], 0b00#2, false) := by decide
/-- FD-6: j = 8 is bit 7 of byte 1. -/
theorem test_fd_store : after frameView (.fdStore true) (testDecoder true 9 [0xAA, 0x00]) =
    some (true, 10, [0xAA, 0x80], 0b00#2, false) := by decide
/-- R61: a 0 is written too. -/
theorem test_fd_store_zero : after frameView (.fdStore false) (testDecoder true 8 [0xFF, 0xFF]) =
    some (true, 9, [0xFE, 0xFF], 0b00#2, false) := by decide
/-- FD-7. -/
theorem test_fd_accept : after frameView (.fdAccept false) (testDecoder true 16 [0xAA, 0xAA]) =
    some (false, 0, [0x00, 0x00], 0b01#2, true) := by decide
/-- FD-9. -/
theorem test_fd_reject : after frameView (.fdReject true) (testDecoder true 16 [0xAA, 0xAA]) =
    some (false, 0, [0x00, 0x00], 0b10#2, false) := by decide
/-- FD-8. -/
theorem test_fd_overflow : after frameView (.fdOverflow true) (testDecoder true 17 [0xAA, 0xAA]) =
    some (false, 0, [0x00, 0x00], 0b11#2, false) := by decide
/-- What format FD selects in FD-1, FD-2, FD-4, FD-7, FD-8, FD-9 and FD-10. -/
theorem test_fd_selects :
    decodeFd (fdVector (testDecoder true 5 [0xA0, 0x00]) false true) = .ok .nobit ∧
    decodeFd (fdVector (testDecoder false 0 [0x00, 0x00]) true false) = .ok .ignore ∧
    decodeFd (fdVector (testDecoder true 1 [0x00, 0x00]) true true) = .ok (.store true) ∧
    decodeFd (fdVector (testDecoder true 16 [0xAA, 0xAA]) true false) = .ok (.accept false) ∧
    decodeFd (fdVector (testDecoder true 17 [0xAA, 0xAA]) true true) = .ok (.overflow true) ∧
    decodeFd (fdVector (testDecoder true 16 [0xAA, 0xAA]) true true) = .ok (.reject true) ∧
    decodeFd (fdVector (testDecoder true 16 [0x2A, 0xAA]) true false) = .ok (.reject false) := by decide

/-! ## The cycle -/

/-- CY-1. -/
theorem test_nop : exec .nop { testChip with bitValid := true, bitOut := true, winCode := 0b11#2, outcome := 0b01#2, activate := true } =
    .next testChip := by rfl
/-- CY-2. -/
theorem test_tick_counts : after (fun t => (t.divCnt, t.bitValid)) .tick { testChip with divCnt := 2 } = some (3, false) := by decide
/-- CY-3. -/
theorem test_tick_fires : after (fun t => (t.divCnt, t.bitValid, t.bitOut, t.syncFlag, t.bitCount)) .tick
    { testChip with divCnt := 3, symLevel := true } = some (0, true, true, true, 1) := by decide
/-- CY-4. -/
theorem test_sample_completes : after (fun t => (t.tone0.mag, t.tone1.mag, t.symLevel, t.symValid, t.winCode, t.divCnt)) (.sample 0#24)
    { testLastSample with symLevel := true, divCnt := 2 } = some (0x42800000#32, f32Zero, false, true, 0b01#2, 2) := by decide +kernel
/-- CY-8. -/
theorem test_sample_within : after (fun t => (t.tone0, t.tone1, t.winCode)) (.sample 5#24) testChip =
    some (⟨0x40A00000#32, 0x40A00000#32, f32Zero, 1, f32Zero⟩, ⟨0x40A00000#32, 0x40A00000#32, f32Zero, 1, f32Zero⟩, 0b00#2) := by
  decide +kernel
/-- CY-5: the bit carries the old level. -/
theorem test_sampleTick : after (fun t => (t.symLevel, t.winCode, t.bitOut, t.divCnt, t.syncFlag, t.bitCount)) (.sampleTick 0#24)
    { testLastSample with symLevel := true, divCnt := 3 } = some (false, 0b01#2, true, 0, true, 1) := by decide +kernel
/-- CY-6, CY-7, and R240's example. -/
theorem test_reset : exec .reset { testLastSample with syncFlag := true, bitCount := 9, symLevel := true, buf := [0xAA], draw := 5 } =
    .next { testChip with draw := 5 } := by rfl

/-- R222: no run under W = 0, not even its reset cycles. -/
theorem test_reset_refused : exec .reset { testChip with cfg := { testChip.cfg with window := 0#16 } } =
    .refused .refusedConfiguration := by rfl

/-! ## The step -/

/-- Program P1, last step: the seventeenth bit of E1 is accepted. -/
theorem test_step_fd : afterStep frameView { testDecoder true 16 [0xAA, 0xAA] with inputs := [.fd true false] } =
    some (false, 0, [0x00, 0x00], 0b01#2, true) := by decide
/-- CY-7 as a cycle (EV 111): reset dominates. -/
theorem test_step_reset : afterStep (fun t => (t.tone0.cnt, t.divCnt, t.cfgOpen))
    (driveCycle true true 8#24 true { testLastSample with divCnt := 2 }) = some (0, 0, true) := by decide
/-- R250: a change of a port while running is refused; right after reset it is not. -/
theorem test_step_config :
    (step (drive (.cycle ⟨false, false, 0#24, false, Cfg.initial⟩) testChip) = .refused .configurationChanged) ∧
    afterStep (fun t => t.cfg.releaseCode) (drive (.cycle ⟨false, false, 0#24, false, { testChip.cfg with releaseCode := 0x5A }⟩)
      { testChip with cfgOpen := true }) = some 0x5A := by exact ⟨rfl, by decide⟩
/-- The words of opcode_table.json are placed so that the first step after reset performs them: one of each format. -/
theorem test_place :
    afterStep (fun t => t.divCnt) (State.reset.withFetchWord 8 0b001) = some 1 ∧
    afterStep (fun t => t.tone0.cnt) (State.reset.withFetchWord 1 0b0) = some 1 ∧
    afterStep (fun t => t.winCode) (State.reset.withFetchWord 8 0b10110) = some 0b10#2 ∧
    afterStep (fun t => t.bitValid) (State.reset.withFetchWord 2 0b11) = some true ∧
    afterStep (fun t => t.outcome) (State.reset.withFetchWord 8 0b110010) = some 0b11#2 ∧
    afterStep (fun t => t.activate) (State.reset.withFetchWord 8 0b110101) = some true := by decide +kernel
/-- `frame 0xA5` of E3. -/
theorem test_frame_notation : frame [0xA5] = [.fd true, .fd true, .fd false, .fd true, .fd false, .fd false, .fd true, .fd false, .fd true] := by
  decide

/-- R95: `smpt v` drives EV 011 with v; in a reset cycle v is don't care; 2^24 is no sample of any port (R6, R209; log 14). -/
theorem test_stimuli : stimuliOf testChip.cfg [.smpt 255, .rstSmp 16777216] =
      some [.cycle ⟨false, true, 255#24, true, testChip.cfg⟩, .cycle ⟨true, true, 0#24, false, testChip.cfg⟩] ∧
    stimulusOf testChip.cfg (.smp 16777215) = some (.cycle ⟨false, true, 0xFFFFFF#24, false, testChip.cfg⟩) ∧
    stimulusOf testChip.cfg (.smp 16777216) = none ∧
    booted ⟨8, 1⟩ testChip.cfg [.nop, .smpt 16777216] = none := by decide
/-- BC_BITS, "the least n with 2^n > 8L+1" (R6): 8L+1 = 9 needs 4 bits, 17 needs 5, 121 needs 7 and 129 needs 8. -/
theorem test_bc_bits : [1, 2, 15, 16].map bcBits = [4, 5, 7, 8] := by decide

/-- R23, R127: `sym_pin` mirrors the level, and the outputs are the registers (the end of program P3, cycle 41). -/
theorem test_outputs : ({ testChip with
      symLevel := true, symValid := true, bitValid := true, bitOut := true, outcome := 0b01#2, activate := true
      tone1 := ⟨f32Zero, f32Zero, f32Zero, 0, 0x43000000#32⟩ } : State).outputs =
    ⟨true, true, true, 0b00#2, true, true, 0b01#2, true, false, 0, f32Zero, 0x43000000#32⟩ := by decide

/-! ## Witnesses: for every obligation with hypotheses, a state and operands that meet them -/

/-- The state and operands of most witnesses: a legal configuration. -/
theorem witness_legalConfig : legalConfig testChip = true ∧ legalConfig testLastSample = true := by decide

theorem witness_DecodedWordHasItsRowsPattern : decode (.sd 0b10000#5) = .ok .sdHold ∧ Instr.sdHold.row.priority = 2 ∧
    SdOp.set0.toInstr.row.priority = 1 := by decide
theorem witness_EveryReachableVectorMatchesOneRow :
    (Instr.reset.row.width = 3 ∧ Instr.reset.row.hits (0b111#3).toNat = true) ∧
    ((TeOp.complete.toInstr .t1 5#24).row.hits (0b1#1).toNat = true ∧ DvOp.idle.toInstr.row.hits (0b01#2).toNat = true ∧
      BsOp.sample.toInstr.row.hits (0b1#1).toNat = true) ∧
    (¬ ((0b11001#5).getLsbD 3 = true ∧ (0b11001#5).getLsbD 2 = true) ∧
      ¬ ((0b11001#5).getLsbD 1 = true ∧ (0b11001#5).getLsbD 0 = true) ∧
      SdOp.set0.toInstr.row.hits (0b11001#5).toNat = true) ∧
    ¬ ((0b110101#6).getLsbD 5 = true ∧ (0b110101#6).getLsbD 4 = true ∧ (0b110101#6).getLsbD 2 = true ∧
      (0b110101#6).getLsbD 1 = true) ∧ (FdOp.accept false).toInstr.row.hits (0b110101#6).toNat = true := by decide
theorem witness_UnreachableVectorsAreRefusedAndNeverFormed :
    ((0b01100#5).getLsbD 3 = true ∧ (0b01100#5).getLsbD 2 = true) ∧
    ((0b10011#5).getLsbD 1 = true ∧ (0b10011#5).getLsbD 0 = true) ∧
    (0b110110#6).getLsbD 5 = true ∧ (0b110110#6).getLsbD 4 = true ∧ (0b110110#6).getLsbD 2 = true ∧
    (0b110110#6).getLsbD 1 = true := by decide
/-- An exact zero as a sum and as a difference, the largest finite value, and the tie at the overflow bound, added and subtracted. -/
theorem witness_AdditionRoundsToNearestEven :
    (classify 0x3F800000#32 = .finite false (2 ^ 149) ∧ classify 0xBF800000#32 = .finite true (2 ^ 149) ∧
      signed false (2 ^ 149) + signed true (2 ^ 149) = 0 ∧ signed true (2 ^ 149) - signed true (2 ^ 149) = 0) ∧
    (classify 0x7F7FFFFF#32 = .finite false ((2 ^ 24 - 1) * 2 ^ 253) ∧ classify 0x00000000#32 = .finite false 0 ∧
      (signed false ((2 ^ 24 - 1) * 2 ^ 253) + signed false 0).natAbs < (2 ^ 25 - 1) * 2 ^ 252 ∧
      (signed false 0 - signed false ((2 ^ 24 - 1) * 2 ^ 253)).natAbs < (2 ^ 25 - 1) * 2 ^ 252) ∧
    classify 0x73000000#32 = .finite false (2 ^ 252) ∧ classify 0xF3000000#32 = .finite true (2 ^ 252) ∧
      (2 ^ 25 - 1) * 2 ^ 252 ≤ (signed false ((2 ^ 24 - 1) * 2 ^ 253) + signed false (2 ^ 252)).natAbs ∧
      (2 ^ 25 - 1) * 2 ^ 252 ≤ (signed false ((2 ^ 24 - 1) * 2 ^ 253) - signed true (2 ^ 252)).natAbs := by decide +kernel
/-- A product of 1.0 and the largest finite value, and 31 · 1082401 = 2^25 - 1 scaled to the overflow bound. -/
theorem witness_MultiplicationRoundsToNearestEven :
    (classify 0x3F800000#32 = .finite false (2 ^ 149) ∧ classify 0x7F7FFFFF#32 = .finite false ((2 ^ 24 - 1) * 2 ^ 253) ∧
      2 ^ 149 * ((2 ^ 24 - 1) * 2 ^ 253) < (2 ^ 25 - 1) * 2 ^ 252 * 2 ^ 149) ∧
    classify 0x5B780000#32 = .finite false (31 * 2 ^ 200) ∧ classify 0x63842108#32 = .finite false (1082401 * 2 ^ 201) ∧
      (2 ^ 25 - 1) * 2 ^ 252 * 2 ^ 149 ≤ 31 * 2 ^ 200 * (1082401 * 2 ^ 201) := by decide +kernel
theorem witness_NaNResultsAndTheirQuietBit : isNaN (f32Add 0 0x7F800001#32 f32Zero) = true ∧
    isNaN (f32Sub 0 0x7F800000#32 0x7F800000#32) = true ∧ isNaN (f32Mul 0 0x7F800000#32 f32Zero) = true := by
  have h : isNaN (drawnNaN 0) = true := by simp [isNaN, classify_drawnNaN]
  exact ⟨h, h, h⟩
theorem witness_ComparisonsAreOrdered : isNaN 0x7F800001#32 = true ∧
    (f32Gt 0x40400000#32 0x40000000#32 = true ∧ f32Gt 0x40000000#32 0x3F800000#32 = true) ∧
    classify 0x80000000#32 = .finite true 0 ∧ classify 0xFF7FFFFF#32 = .finite true ((2 ^ 24 - 1) * 2 ^ 253) := by decide +kernel
theorem witness_TeStepAdvancesTheFilter : legalConfig testChip = true ∧ testChip.tone0.cnt.toNat + 1 < 2 ^ 16 ∧
    testChip.tone1.cnt.toNat + 1 < 2 ^ 16 := by decide
theorem witness_TeCompleteFinalisesTheWindow : legalConfig testLastSample = true := by decide
theorem witness_SampleUpdatesBothTones : legalConfig testLastSample = true := by decide
theorem witness_WindowCounterCountsModuloW : legalConfig testLastSample = true ∧
    testLastSample.tone0.cnt.toNat < testLastSample.cfg.window.toNat ∧ testLastSample.tone1.cnt.toNat < testLastSample.cfg.window.toNat := by decide
/-- W = 1 with the coefficient 1.9 of TE-17. -/
def testUnitWindow : State := { testChip with cfg := { testChip.cfg with window := 1#16, coef0 := 0x3FF33333#32 } }
theorem witness_WindowOfOneSquaresTheSample : legalConfig testUnitWindow = true ∧ (testUnitWindow.tone .t0).q1 = f32Zero ∧
    (testUnitWindow.tone .t0).q2 = f32Zero ∧ classify (testUnitWindow.coef .t0) = .finite false (0xF33333 * 2 ^ 126) ∧
    classify (f32Mul 0 (testUnitWindow.coef .t0) (u2f 7#24)) = .finite false (0xD4CCCD * 2 ^ 129) := by decide +kernel
theorem witness_WindowOfOneSquaresForEveryFiniteCoefficient : legalConfig testUnitWindow = true ∧
    (testUnitWindow.tone .t0).q1 = f32Zero ∧ (testUnitWindow.tone .t0).q2 = f32Zero ∧
    classify (testUnitWindow.coef .t0) = .finite false (0xF33333 * 2 ^ 126) := by decide +kernel
theorem witness_SdNoneReportsNoWindow : legalConfig testChip = true := by decide
/-- A NaN, and a magnitude equal to T, beside the legal configuration. -/
theorem witness_SdSet0DecidesLevelZero : legalConfig testChip = true ∧ isNaN 0x7FC00000#32 = true ∧
    f32Gt 0x42800000#32 0x42000000#32 = true ∧ f32Lt f32Zero 0x42000000#32 = true := by decide +kernel
theorem witness_SdSet1DecidesLevelOne : legalConfig testChip = true ∧ isNaN 0x7FC00000#32 = true ∧
    f32Lt f32Zero 0x42000000#32 = true ∧ f32Gt 0x43000000#32 0x42000000#32 = true := by decide +kernel
theorem witness_SdHoldKeepsTheLevel : legalConfig testChip = true ∧ isNaN 0xFFC00000#32 = true := by decide +kernel
theorem witness_CompletedWindowDecidesTheLevel : legalConfig testLastSample = true ∧
    testLastSample.tone0.cnt.toNat + 1 = testLastSample.cfg.window.toNat ∧
    testLastSample.tone1.cnt.toNat + 1 = testLastSample.cfg.window.toNat := by decide
theorem witness_WindowOfOneAlwaysHolds : legalConfig testUnitWindow = true ∧ testUnitWindow.cfg.window = 1#16 ∧
    testUnitWindow.tone0.cnt = 0 ∧ testUnitWindow.tone1.cnt = 0 ∧ testUnitWindow.tone0.q1 = f32Zero ∧
    testUnitWindow.tone0.q2 = f32Zero ∧ testUnitWindow.tone1.q1 = f32Zero ∧ testUnitWindow.tone1.q2 = f32Zero := by decide
/-- P = 4: div_cnt = 3 wraps and 2 does not. -/
theorem witness_DividerCountsTicksAndWraps : legalConfig testChip = true ∧ testChip.divCnt.toNat + 1 < 2 ^ 20 ∧
    3 + 1 = 1000000 / testChip.cfg.bitRate.toNat ∧ 2 + 1 ≠ 1000000 / testChip.cfg.bitRate.toNat := by decide
theorem witness_BitPeriodIsTheTruncatedQuotient : cfgLegal ⟨8, 2⟩ { Cfg.initial with bitRate := 1#20 } = true ∧
    cfgLegal ⟨8, 2⟩ { Cfg.initial with bitRate := 1000000#20 } = true ∧ ({ Cfg.initial with bitRate := 1200#20 } : Cfg).bitRate = 1200#20 ∧
    ({ Cfg.initial with bitRate := 300000#20 } : Cfg).bitRate = 300000#20 := by decide
theorem witness_BitSamplerReadsTheLevel : legalConfig testChip = true := by decide
theorem witness_BitReadsTheStartOfCycleLevel : legalConfig { testLastSample with divCnt := 3 } = true ∧
    ({ testLastSample with divCnt := 3 } : State).divCnt.toNat + 1 = bitPeriod testLastSample.cfg ∧ testLastSample.syncFlag = false := by decide
theorem witness_BitFiresOnEveryPthTick : (legalConfig testChip = true ∧ testChip.divCnt = 0 ∧ 1 ≤ 3 ∧ 3 < bitPeriod testChip.cfg) ∧
    legalConfig State.reset = true ∧ State.reset.divCnt = 0 ∧ State.reset.cfgOpen = true := by decide
/-- The last bit of a two-byte buffer. -/
theorem witness_BufWriteAssignsOneBit : 15 < 8 * ([0x00, 0x00] : List Byte).length ∧ 7 < 8 := by decide
theorem witness_BufferIsNeverOverrun : (exec .fdSync testChip = .next (fdSync testChip) ∧ BufOk testChip) ∧
    FrameOk (testDecoder true 16 [0xAA, 0xAA]) ∧ (testDecoder true 16 [0xAA, 0xAA]).syncFlag = true := by
  exact ⟨⟨rfl, by decide⟩, by decide, by decide⟩
theorem witness_CodeMatcherComparesEveryPayloadBit : BufOk (testDecoder true 16 [0xAA, 0xAA]) ∧
    matchFlag (testDecoder true 16 [0xAA, 0xAA]) false = true ∧ matchFlag (testDecoder true 16 [0xAA, 0xAA]) true = false := by decide
theorem witness_FdNobitAndIgnoreChangeNothing : legalConfig (testDecoder false 0 [0x00, 0x00]) = true := by decide
theorem witness_FdSyncStartsAFrame : legalConfig (testDecoder false 0 [0x00, 0x00]) = true := by decide
/-- The first and the last payload bit, a cursor past the buffer, and the cursor no run reaches. -/
theorem witness_FdStoreWritesThePayloadBit : legalConfig (testDecoder true 1 [0x00, 0x00]) = true ∧
    (testDecoder true 1 [0x00, 0x00]).bitCount = 0 + 1 ∧ (testDecoder true 16 [0x00, 0x00]).bitCount = 15 + 1 ∧
    (testDecoder true 17 [0x00, 0x00]).bitCount = 16 + 1 ∧ (testDecoder true 0 [0x00, 0x00]).bitCount = 0 ∧
    (testDecoder true 17 [0x00, 0x00]).bitCount + 1 < 2 ^ bcBits 2 := by decide
theorem witness_TerminalOperationsReportAndClear : legalConfig (testDecoder true 16 [0xAA, 0xAA]) = true ∧
    nextBuf (testDecoder true 16 [0xAA, 0xAA]) false = rcBytes (testDecoder true 16 [0xAA, 0xAA]) ∧
    nextBuf (testDecoder true 16 [0xAA, 0xAA]) true ≠ rcBytes (testDecoder true 16 [0xAA, 0xAA]) := by decide
/-- One state for each row of R163's table, at the cursors where the rows meet. -/
theorem witness_FrameDecoderFollowsItsTransitions :
    legalConfig { testDecoder true 15 [0xAA, 0xAA] with inputs := [.fd true true] } = true ∧
    (testDecoder false 0 [0x00, 0x00]).syncFlag = false ∧
    (testDecoder true 15 [0xAA, 0xAA]).bitCount + 1 < 8 * 2 + 1 ∧ (testDecoder true 16 [0xAA, 0xAA]).bitCount + 1 = 8 * 2 + 1 ∧
    8 * 2 + 1 < (testDecoder true 17 [0xAA, 0xAA]).bitCount + 1 := by decide
theorem witness_FrameEndsInAcceptExactlyOnTheCode : legalConfig testChip = true ∧ testChip.syncFlag = false ∧
    (byteBits 0xA5).length = 8 * testChip.params.codeBytes ∧ 1 ≤ 8 ∧
    ∀ j, j < 8 → (byteBits 0xA5)[j]? = some (testChip.cfg.releaseCode.testBit (8 - 1 - j)) := by decide
theorem witness_OverflowIsNeverSelected : FrameOk (testDecoder true 16 [0xAA, 0xAA]) ∧ FrameOk (testDecoder false 0 [0x00, 0x00]) := by
  decide
theorem witness_ActivateOnlyAfterAcceptance : (({ testDecoder true 16 [0xAA, 0xAA] with inputs := [.fd true false] } : State).Inv ∧
      ∃ t, step { testDecoder true 16 [0xAA, 0xAA] with inputs := [.fd true false] } = .next t ∧ t.activate = true) ∧
    (driveCycle false false 0#24 true { testDecoder true 16 [0xAA, 0xAA] with divCnt := 3 }).Inv ∧
      ∃ t, step (driveCycle false false 0#24 true { testDecoder true 16 [0xAA, 0xAA] with divCnt := 3 }) = .next t ∧
        t.activate = true := by
  exact ⟨⟨by decide, _, rfl, by decide⟩, by decide, _, rfl, by decide⟩
theorem witness_NopClearsTheStrobes : legalConfig { testChip with winCode := 0b11#2, bitValid := true } = true := by decide
theorem witness_TickRunsTheBitPath : legalConfig testChip = true ∧ testChip.divCnt.toNat + 1 < 2 ^ 20 ∧
    ({ testChip with divCnt := 2 } : State).divCnt.toNat + 1 ≠ bitPeriod testChip.cfg ∧
    ({ testChip with divCnt := 3 } : State).divCnt.toNat + 1 = bitPeriod testChip.cfg := by decide
theorem witness_SampleTickIsSampleAndTick : legalConfig { testLastSample with divCnt := 3, symLevel := true } = true := by decide
theorem witness_CycleWithoutAnEventLeavesItsPath : (∃ t, exec .nop testChip = .next t) ∧ (∃ t, exec .tick testChip = .next t) ∧
    ∃ t, exec (.sample 5#24) testChip = .next t := by
  exact ⟨⟨_, rfl⟩, ⟨_, rfl⟩, _, rfl⟩
theorem witness_StrobesAreClearedUnlessWritten : (∃ t, exec (.sampleTick 5#24) testChip = .next t) ∧
    ¬ (testChip.tone0.cnt.toNat + 1 = testChip.cfg.window.toNat ∧ testChip.tone1.cnt.toNat + 1 = testChip.cfg.window.toNat) ∧
    testChip.divCnt.toNat + 1 ≠ bitPeriod testChip.cfg ∧ (∃ t, exec (.sampleTick 5#24) { testChip with divCnt := 3 } = .next t) ∧
    ({ testChip with divCnt := 3 } : State).divCnt.toNat + 1 = bitPeriod testChip.cfg ∧
    testChip.bitCount ≠ 8 * testChip.params.codeBytes ∧ testChip.bitCount ≤ 8 * testChip.params.codeBytes := by
  exact ⟨⟨_, rfl⟩, by decide, by decide, ⟨_, rfl⟩, by decide, by decide, by decide⟩
theorem witness_ConfigurationIsReadOnly : ∃ t, exec (.teStep .t0 5#24) testChip = .next t := ⟨_, rfl⟩
theorem witness_OnlyDecisionsChangeTheLevel : exec .sdSet1 testChip = .next (sdSet1 testChip) ∧
    (sdSet1 testChip).symLevel ≠ testChip.symLevel := by exact ⟨rfl, by decide⟩
theorem witness_OnlyCompletedWindowsChangeTheMagnitude : exec (.teComplete .t0 0#24) testLastSample =
    .next (teComplete .t0 0#24 testLastSample) ∧
    ((teComplete .t0 0#24 testLastSample).tone .t0).mag ≠ (testLastSample.tone .t0).mag := by
  exact ⟨rfl, by decide +kernel⟩
theorem witness_LevelStaysValidUntilReset : (∃ t, exec .sdHold { testChip with symValid := true } = .next t) ∧
    Instr.sdHold ≠ .reset ∧ ({ testChip with symValid := true } : State).symValid = true := by
  exact ⟨⟨_, rfl⟩, by decide, by decide⟩
theorem witness_ResetWritesEveryRegister : (0b101#3).getLsbD 2 = true ∧ legalConfig testLastSample = true := by decide
/-- Ports in reset with a sample and a tick, which are lost. -/
def testResetPorts : Ports := ⟨true, true, 8#24, true, testChip.cfg⟩
theorem witness_HoldingResetKeepsTheResetState : testResetPorts.rst = true ∧ paramsLegal testLastSample.params = true ∧
    cfgLegal testLastSample.params testResetPorts.cfg = true ∧
    (∃ t, Host.Core.run core 1 { testLastSample with inputs := List.replicate 3 (.cycle testResetPorts) } = .next t) ∧
    ∃ u, Host.Core.run core 3 { testLastSample with inputs := List.replicate 3 (.cycle testResetPorts) } = .next u := by
  exact ⟨rfl, by decide, by decide, ⟨_, rfl⟩, _, rfl⟩
theorem witness_EntryStateMeetsTheInvariant : paramsLegal ⟨24, 1⟩ = true ∧ cfgLegal ⟨24, 1⟩ testChip.cfg = true ∧
    paramsLegal ⟨1, 4⟩ = true ∧ cfgLegal ⟨1, 4⟩ Cfg.initial = true := by decide
theorem witness_EveryStepKeepsTheInvariant : (driveCycle false true 5#24 true testChip).Inv ∧
    ∃ t, step (driveCycle false true 5#24 true testChip) = .next t := by
  exact ⟨by decide, _, rfl⟩
theorem witness_EveryAdmittedStepCompletes : paramsLegal testChip.params = true ∧
    HostOk (driveCycle false true 255#24 true testChip) (nextStimulus (driveCycle false true 255#24 true testChip)) ∧
    HostOk (drive (.fd true true) testChip) (nextStimulus (drive (.fd true true) testChip)) ∧
    HostOk testChip (nextStimulus testChip) := by
  have h : legalConfig testChip = true := by decide
  exact ⟨by decide, ⟨by decide, by decide, by decide⟩, h, by decide, by decide, by decide⟩
theorem witness_RefusedConfigurationAdmitsNoOperation :
    legalConfig { testChip with cfg := { testChip.cfg with window := 0#16 } } = false ∧
    legalConfig { testChip with cfg := { testChip.cfg with bitRate := 1000001#20 } } = false ∧
    legalConfig { testChip with cfg := { testChip.cfg with releaseCode := 0x100 } } = false ∧
    legalConfig { testChip with params := ⟨25, 1⟩ } = false ∧ legalConfig { testChip with params := ⟨8, 0⟩ } = false ∧
    legalConfig { testChip with cfg := { testChip.cfg with window := 65535#16, bitRate := 1000000#20, releaseCode := 0xFF } } = true := by
  decide
theorem witness_ConfigurationChangeWhileRunningIsRefused :
    (drive (.cycle ⟨false, false, 0#24, false, Cfg.initial⟩) testChip).inputs = .cycle ⟨false, false, 0#24, false, Cfg.initial⟩ :: [] ∧
    testChip.cfgOpen = false ∧ Cfg.initial ≠ testChip.cfg := by decide
/-- 256 and 255 on the 8-bit port. -/
theorem witness_SampleBeyondThePortIsRefused : (driveCycle false true 256#24 false testChip).inputs =
    .cycle ⟨false, true, 256#24, false, testChip.cfg⟩ :: [] ∧ cfgHeld ⟨false, true, 256#24, false, testChip.cfg⟩ testChip = true ∧
    2 ^ testChip.params.sampleBits ≤ (256#24).toNat ∧ (255#24).toNat < 2 ^ testChip.params.sampleBits := by decide
theorem witness_StepRunsTheDecodedOperation :
    ((driveCycle false true 255#24 true testChip).inputs = .cycle ⟨false, true, 255#24, true, testChip.cfg⟩ :: [] ∧
      decode (evWord ⟨false, true, 255#24, true, testChip.cfg⟩) = .ok (.sampleTick 255#24) ∧
      (Instr.sampleTick 255#24).wellFormed testChip.params = true ∧
      cfgHeld ⟨false, true, 255#24, true, testChip.cfg⟩ testChip = true) ∧
    ((drive (.fd true true) testChip).inputs = .fd true true :: [] ∧ decodeFd (fdVector testChip true true) = .ok .sync) ∧
    testChip.inputs = [] := by decide
/-- Infinities of both signs beside 1.0. -/
theorem witness_InfiniteOperandsGiveInfinities : classify 0x7F800000#32 = .inf false ∧ classify 0xFF800000#32 = .inf true ∧
    classify 0x3F800000#32 = .finite false (2 ^ 149) ∧ (2 ^ 149 ≠ 0) ∧ false ≠ true := by decide +kernel
theorem witness_BitCountKeepsItsWidth : (∃ t, exec (.fdStore true) (testDecoder true 31 [0x00, 0x00]) = .next t) ∧
    (testDecoder true 31 [0x00, 0x00]).bitCount < 2 ^ bcBits 2 ∧ 8 * 2 + 1 < 2 ^ 5 := by
  exact ⟨⟨_, rfl⟩, by decide, by decide⟩

end Sys2Proof.Machine
end

section
/-! PROOFS. The arithmetic of 00_scope.md R11, class by class: one equation of addition and multiplication for each pair of
operand classes, and what the one rounding of an exact signed value gives. -/

namespace Sys2Proof.Machine

section Classes

variable {n : Nat} {a b : F32} {s t : Bool} {m l : Nat}

/-- Subtraction is addition of the operand with its sign inverted. -/
theorem f32Sub_eq (n : Nat) (a b : F32) : f32Sub n a b = f32Add n a (f32Neg b) := rfl

theorem isNaN_iff (x : F32) : isNaN x = true ↔ classify x = .nan := beq_iff_eq

theorem f32Add_nan_left (ha : classify a = .nan) : f32Add n a b = drawnNaN n := by simp only [f32Add, ha]

theorem f32Add_nan_right (hb : classify b = .nan) : f32Add n a b = drawnNaN n := by
  cases ha : classify a <;> simp only [f32Add, ha, hb]

theorem f32Add_inf_inf (ha : classify a = .inf s) (hb : classify b = .inf t) :
    f32Add n a b = if s = t then f32Inf s else drawnNaN n := by simp only [f32Add, ha, hb]

theorem f32Add_inf_finite (ha : classify a = .inf s) (hb : classify b = .finite t l) : f32Add n a b = f32Inf s := by
  simp only [f32Add, ha, hb]

theorem f32Add_finite_inf (ha : classify a = .finite s m) (hb : classify b = .inf t) : f32Add n a b = f32Inf t := by
  simp only [f32Add, ha, hb]

theorem f32Add_finite_zero (ha : classify a = .finite s m) (hb : classify b = .finite t l)
    (h : signed s m + signed t l = 0) : f32Add n a b = packF32 (s && t) 0 := by
  simp only [f32Add, ha, hb, h, if_true]

theorem f32Add_finite_nonzero (ha : classify a = .finite s m) (hb : classify b = .finite t l)
    (h : signed s m + signed t l ≠ 0) : f32Add n a b =
      packF32 (decide (signed s m + signed t l < 0)) (roundMag (signed s m + signed t l).natAbs 0) := by
  simp only [f32Add, ha, hb, h, if_false]

theorem f32Mul_nan_left (ha : classify a = .nan) : f32Mul n a b = drawnNaN n := by simp only [f32Mul, ha]

theorem f32Mul_nan_right (hb : classify b = .nan) : f32Mul n a b = drawnNaN n := by
  cases ha : classify a <;> simp only [f32Mul, ha, hb]

theorem f32Mul_inf_inf (ha : classify a = .inf s) (hb : classify b = .inf t) : f32Mul n a b = f32Inf (s != t) := by
  simp only [f32Mul, ha, hb]

theorem f32Mul_inf_finite (ha : classify a = .inf s) (hb : classify b = .finite t l) :
    f32Mul n a b = if l = 0 then drawnNaN n else f32Inf (s != t) := by simp only [f32Mul, ha, hb]

theorem f32Mul_finite_inf (ha : classify a = .finite s m) (hb : classify b = .inf t) :
    f32Mul n a b = if m = 0 then drawnNaN n else f32Inf (s != t) := by simp only [f32Mul, ha, hb]

theorem f32Mul_finite_finite (ha : classify a = .finite s m) (hb : classify b = .finite t l) :
    f32Mul n a b = packF32 (s != t) (roundMag (m * l) 149) := by simp only [f32Mul, ha, hb]

end Classes

/-! What an exact signed value is rounded to. -/

/-- A zero packed with either sign is the pattern 0x80000000 or 0x00000000. -/
theorem packF32_zero (neg : Bool) : packF32 neg 0 = if neg then 0x80000000#32 else 0x00000000#32 := by cases neg <;> rfl

theorem signed_natAbs (v : Int) : signed (decide (v < 0)) v.natAbs = v := by
  by_cases h : v < 0
  · simp only [signed, h, decide_true, if_true]; omega
  · simp only [signed, h, decide_false, Bool.false_eq_true, if_false]; omega

/-- Values of one sign are as far apart as their magnitudes. -/
theorem natAbs_signed_sub_same (u : Bool) (r m : Nat) : (signed u r - signed u m).natAbs = ((r : Int) - m).natAbs := by
  cases u <;> simp only [signed, Bool.false_eq_true, if_true, if_false]
  omega

/-- Values of unlike signs are as far apart as the sum of their magnitudes. -/
theorem natAbs_signed_sub_not (u : Bool) (q m : Nat) : (signed (!u) q - signed u m).natAbs = q + m := by
  cases u <;> simp only [signed, Bool.not_true, Bool.not_false, Bool.false_eq_true, if_true, if_false] <;> omega

/-- What the statement of addition asks of a result `r` of the exact value `v`: nearest, ties to even, infinity from half an ulp past
the largest finite value on. -/
def RoundsTo (r : F32) (v : Int) : Prop :=
  (v.natAbs < (2 ^ 25 - 1) * 2 ^ 252 → ∃ u p, classify r = .finite u p ∧
    ∀ (y : F32) (w : Bool) (q : Nat), classify y = .finite w q →
      (signed u p - v).natAbs ≤ (signed w q - v).natAbs ∧
      ((signed u p - v).natAbs = (signed w q - v).natAbs → signed w q ≠ signed u p → r.getLsbD 0 = false)) ∧
  ((2 ^ 25 - 1) * 2 ^ 252 ≤ v.natAbs → classify r = .inf (decide (v < 0)))

/-- The nearest binary32 magnitude gives, with the sign of the exact value, the nearest binary32 value. -/
theorem roundsTo_packed (neg : Bool) (m : Nat) :
    RoundsTo (packF32 neg (roundMag m 0)) (signed neg m) := by
  have habs : (signed neg m).natAbs = m := by
    simpa [signed] using natAbs_signed_sub_same neg m 0
  constructor
  · intro h
    rw [habs] at h
    obtain ⟨r, hr, hround, hodd⟩ := classify_rounded neg m 0 (by omega)
    rw [Nat.pow_zero, Nat.mul_one] at hround
    refine ⟨neg, r, hr, fun y w q hy => ?_⟩
    obtain ⟨hnear, htie⟩ := rounded_nearest m 0 y w q hy
    have hzero := (rounded_nearest m 0 0#32 false 0 (by decide)).1
    rw [← hround, Nat.pow_zero, Nat.mul_one] at hnear htie
    rw [← hround] at hzero
    have heven : roundShift m (droppedBits m 0) % 2 = 0 → (packF32 neg (roundMag m 0)).getLsbD 0 = false := fun h => by
      rw [← Bool.not_eq_true, hodd]; omega
    rw [natAbs_signed_sub_same]
    by_cases hw : w = neg
    · subst hw
      rw [natAbs_signed_sub_same]
      exact ⟨hnear, fun he hne => heven (htie he fun e => hne (by rw [e]))⟩
    · obtain rfl : w = !neg := by cases w <;> cases neg <;> simp_all
      rw [natAbs_signed_sub_not]
      refine ⟨by omega, fun he hne => heven (htie (by omega) ?_)⟩
      rintro rfl
      obtain rfl : q = 0 := by omega
      exact hne (by cases neg <;> rfl)
  · intro h
    rw [habs] at h
    have hneg : decide (signed neg m < 0) = neg := by
      cases neg <;> simp only [signed, Bool.false_eq_true, if_true, if_false, decide_eq_true_eq, decide_eq_false_iff_not] <;> omega
    rw [classify_overflowed neg m 0 (by omega), classify_f32Inf, hneg]

/-- A finite sum is its exact value rounded once; an exact zero is so whatever its sign. -/
theorem f32Add_roundsTo {a b : F32} {s t : Bool} {m l : Nat} (n : Nat) (ha : classify a = .finite s m)
    (hb : classify b = .finite t l) : RoundsTo (f32Add n a b) (signed s m + signed t l) := by
  by_cases h : signed s m + signed t l = 0
  · rw [f32Add_finite_zero ha hb h, h]
    have := roundsTo_packed (s && t) 0
    rwa [show roundMag 0 0 = 0 by decide, show signed (s && t) 0 = 0 by cases s <;> cases t <;> rfl] at this
  · rw [f32Add_finite_nonzero ha hb h]
    have := roundsTo_packed (decide (signed s m + signed t l < 0)) (signed s m + signed t l).natAbs
    rwa [signed_natAbs] at this

/-- Settles O6: the sum by the rounding of its exact value, the difference as the sum with the second sign inverted. -/
theorem additionRoundsToNearestEven : Obligations.AdditionRoundsToNearestEven := by
  intro n a b s t m l ha hb
  have hb' := classify_f32Neg b t l hb
  refine ⟨f32Add_roundsTo n ha hb, fun h => ?_, ?_, fun h => ?_⟩
  · rw [f32Add_finite_zero ha hb h, packF32_zero]
  · have hsub := f32Add_roundsTo n ha hb'
    rwa [signed_not, ← Int.sub_eq_add_neg] at hsub
  · rw [Int.sub_eq_add_neg, ← signed_not] at h
    rw [f32Sub_eq, f32Add_finite_zero ha hb' h, packF32_zero]

end Sys2Proof.Machine
end

section
/-! PROOFS. The product's single rounding (00_scope.md R11) and the exact conversion of a sample (30_encoding.md R88). -/

namespace Sys2Proof.Machine

/-- Settles O7: the product's magnitude is rounded once, and packed with the exclusive or of the signs. -/
theorem multiplicationRoundsToNearestEven : Obligations.MultiplicationRoundsToNearestEven := by
  intro n a b s t m l ha hb
  rw [f32Mul_finite_finite ha hb]
  constructor
  · intro h
    obtain ⟨r, hr, hround, hodd⟩ := classify_rounded (s != t) (m * l) 149 h
    refine ⟨r, hr, fun y w q hy => ?_⟩
    obtain ⟨hnear, htie⟩ := rounded_nearest (m * l) 149 y w q hy
    rw [← hround] at hnear htie
    refine ⟨hnear, fun he hne => ?_⟩
    have heven := htie he fun e => hne (Nat.mul_right_cancel (Nat.two_pow_pos 149) e)
    rw [← Bool.not_eq_true, hodd]
    omega
  · intro h
    rw [classify_overflowed _ _ _ h, classify_f32Inf]

/-- A multiple of `2^d` is not moved by the rounding. -/
theorem roundShift_of_dvd {m d : Nat} (h : 2 ^ d ∣ m) : roundShift m d * 2 ^ d = m := by
  have hr : m % 2 ^ d = 0 := Nat.mod_eq_zero_of_dvd h
  have hd := Nat.two_pow_pos d
  have hs : roundShift m d = m / 2 ^ d := by unfold roundShift; rw [hr, if_neg (by omega)]
  rw [hs, Nat.div_mul_cancel h]

/-- Of 24 bits shifted by `e`, at most the `e` zeros below them are dropped. -/
theorem droppedBits_shifted_le (c e : Nat) (hc : c < 2 ^ 24) : droppedBits (c * 2 ^ e) 0 ≤ e := by
  rcases Nat.eq_zero_or_pos c with rfl | hpos
  · rw [Nat.zero_mul]
    exact Nat.le_trans (by decide) (Nat.zero_le e)
  · have hlog : Nat.log2 (c * 2 ^ e) < 24 + e := by
      rw [Nat.log2_lt (Nat.mul_pos hpos (Nat.two_pow_pos e)).ne', Nat.pow_add]
      exact Nat.mul_lt_mul_of_pos_right hc (Nat.two_pow_pos e)
    unfold droppedBits
    omega

/-- 24 bits shifted, below the overflow bound, are packed exactly. -/
theorem classify_packF32_shifted (neg : Bool) (c e : Nat) (hc : c < 2 ^ 24) (he : e ≤ 252) :
    classify (packF32 neg (roundMag (c * 2 ^ e) 0)) = .finite neg (c * 2 ^ e) := by
  have hbound : c * 2 ^ e < (2 ^ 25 - 1) * 2 ^ 252 * 2 ^ 0 := by
    calc c * 2 ^ e ≤ c * 2 ^ 252 := Nat.mul_le_mul_left c (Nat.pow_le_pow_right (by decide) he)
      _ < (2 ^ 25 - 1) * 2 ^ 252 * 2 ^ 0 := by omega
  obtain ⟨r, hr, hround, -⟩ := classify_rounded neg (c * 2 ^ e) 0 hbound
  have hdvd : 2 ^ droppedBits (c * 2 ^ e) 0 ∣ c * 2 ^ e :=
    (Nat.pow_dvd_pow 2 (droppedBits_shifted_le c e hc)).trans (Nat.dvd_mul_left _ _)
  rw [Nat.pow_zero, Nat.mul_one, roundShift_of_dvd hdvd] at hround
  rw [hr, hround]

/-- Settles O10: a sample has 24 bits, which the significand keeps. -/
theorem sampleConversionIsExact : Obligations.SampleConversionIsExact := fun x =>
  classify_packF32_shifted false x.toNat 149 x.isLt (by decide)

end Sys2Proof.Machine
end

section
/-! PROOFS. NaN and infinite results (00_scope.md R11): each operation either draws a NaN pattern, for the operands IEEE 754 names, or
answers no NaN. -/

namespace Sys2Proof.Machine

/-- The operands whose sum is invalid: a NaN, or infinities of opposite signs. -/
def AddInvalid (a b : F32) : Prop :=
  isNaN a = true ∨ isNaN b = true ∨ ∃ s, classify a = .inf s ∧ classify b = .inf (!s)

/-- The operands whose product is invalid: a NaN, or an infinity and a zero. -/
def MulInvalid (a b : F32) : Prop :=
  isNaN a = true ∨ isNaN b = true ∨ ∃ s t, (classify a = .inf s ∧ classify b = .finite t 0) ∨
    (classify a = .finite t 0 ∧ classify b = .inf s)

theorem isNaN_drawnNaN (n : Nat) : isNaN (drawnNaN n) = true := (isNaN_iff _).2 (classify_drawnNaN n)

theorem isNaN_f32Inf (neg : Bool) : isNaN (f32Inf neg) = false := by rw [isNaN, classify_f32Inf]; rfl

/-- What the rounding packs is a finite value or an infinity. -/
theorem isNaN_packF32_roundMag (neg : Bool) (m k : Nat) : isNaN (packF32 neg (roundMag m k)) = false := by
  rcases Nat.lt_or_ge m ((2 ^ 25 - 1) * 2 ^ 252 * 2 ^ k) with h | h
  · obtain ⟨r, hr, -, -⟩ := classify_rounded neg m k h
    rw [isNaN, hr]; rfl
  · rw [classify_overflowed neg m k h, isNaN_f32Inf]

theorem isNaN_packF32_zero (neg : Bool) : isNaN (packF32 neg 0) = false := by cases neg <;> decide

/-- A sum draws a NaN pattern of invalid operands, and is no NaN of all others. -/
theorem f32Add_nan_cases (n : Nat) (a b : F32) :
    (AddInvalid a b ∧ f32Add n a b = drawnNaN n) ∨ (¬ AddInvalid a b ∧ isNaN (f32Add n a b) = false) := by
  cases ha : classify a with
  | nan => exact .inl ⟨.inl ((isNaN_iff a).2 ha), f32Add_nan_left ha⟩
  | inf s =>
    cases hb : classify b with
    | nan => exact .inl ⟨.inr (.inl ((isNaN_iff b).2 hb)), f32Add_nan_right hb⟩
    | inf t =>
      rw [f32Add_inf_inf ha hb]
      by_cases h : s = t
      · exact .inr ⟨by simp [AddInvalid, isNaN_iff, ha, hb, h], by rw [if_pos h, isNaN_f32Inf]⟩
      · exact .inl ⟨.inr (.inr ⟨s, ha, by rw [hb, Bool.eq_not_of_ne (Ne.symm h)]⟩), if_neg h⟩
    | finite t l =>
      exact .inr ⟨by simp [AddInvalid, isNaN_iff, ha, hb], by rw [f32Add_inf_finite ha hb, isNaN_f32Inf]⟩
  | finite s m =>
    cases hb : classify b with
    | nan => exact .inl ⟨.inr (.inl ((isNaN_iff b).2 hb)), f32Add_nan_right hb⟩
    | inf t =>
      exact .inr ⟨by simp [AddInvalid, isNaN_iff, ha, hb], by rw [f32Add_finite_inf ha hb, isNaN_f32Inf]⟩
    | finite t l =>
      refine .inr ⟨by simp [AddInvalid, isNaN_iff, ha, hb], ?_⟩
      by_cases h : signed s m + signed t l = 0
      · rw [f32Add_finite_zero ha hb h, isNaN_packF32_zero]
      · rw [f32Add_finite_nonzero ha hb h, isNaN_packF32_roundMag]

/-- A product draws a NaN pattern of invalid operands, and is no NaN of all others. -/
theorem f32Mul_nan_cases (n : Nat) (a b : F32) :
    (MulInvalid a b ∧ f32Mul n a b = drawnNaN n) ∨ (¬ MulInvalid a b ∧ isNaN (f32Mul n a b) = false) := by
  cases ha : classify a with
  | nan => exact .inl ⟨.inl ((isNaN_iff a).2 ha), f32Mul_nan_left ha⟩
  | inf s =>
    cases hb : classify b with
    | nan => exact .inl ⟨.inr (.inl ((isNaN_iff b).2 hb)), f32Mul_nan_right hb⟩
    | inf t => exact .inr ⟨by simp [MulInvalid, isNaN_iff, ha, hb], by rw [f32Mul_inf_inf ha hb, isNaN_f32Inf]⟩
    | finite t l =>
      rw [f32Mul_inf_finite ha hb]
      by_cases h : l = 0
      · exact .inl ⟨.inr (.inr ⟨s, t, .inl ⟨ha, by rw [hb, h]⟩⟩), if_pos h⟩
      · exact .inr ⟨by simp [MulInvalid, isNaN_iff, ha, hb, h], by rw [if_neg h, isNaN_f32Inf]⟩
  | finite s m =>
    cases hb : classify b with
    | nan => exact .inl ⟨.inr (.inl ((isNaN_iff b).2 hb)), f32Mul_nan_right hb⟩
    | inf t =>
      rw [f32Mul_finite_inf ha hb]
      by_cases h : m = 0
      · exact .inl ⟨.inr (.inr ⟨t, s, .inr ⟨by rw [ha, h], hb⟩⟩), if_pos h⟩
      · exact .inr ⟨by simp [MulInvalid, isNaN_iff, ha, hb, h], by rw [if_neg h, isNaN_f32Inf]⟩
    | finite t l =>
      exact .inr ⟨by simp [MulInvalid, isNaN_iff, ha, hb], by rw [f32Mul_finite_finite ha hb, isNaN_packF32_roundMag]⟩

/-- From such a case distinction: exactly when a result is a NaN, and that every NaN result is quiet. -/
theorem isNaN_iff_and_quiet {P : Prop} {r : F32} {n : Nat} (h : (P ∧ r = drawnNaN n) ∨ (¬ P ∧ isNaN r = false)) :
    (isNaN r = true ↔ P) ∧ (isNaN r = true → r.getLsbD 22 = true) := by
  rcases h with ⟨hP, rfl⟩ | ⟨hP, hr⟩
  · exact ⟨iff_of_true (isNaN_drawnNaN n) hP, fun _ => drawnNaN_quiet n⟩
  · exact ⟨iff_of_false (by simp [hr]) hP, by simp [hr]⟩

/-- An inverted sign is the infinity `!s` exactly where the operand is the infinity `s`. -/
theorem classify_f32Neg_eq_inf_not (b : F32) (s : Bool) : classify (f32Neg b) = .inf (!s) ↔ classify b = .inf s := by
  rw [classify_f32Neg_eq]; cases classify b <;> simp

/-- A difference is invalid of a NaN, or of infinities of one sign. -/
theorem addInvalid_f32Neg (a b : F32) : AddInvalid a (f32Neg b) ↔
    isNaN a = true ∨ isNaN b = true ∨ ∃ s, classify a = .inf s ∧ classify b = .inf s := by
  simp only [AddInvalid, isNaN_f32Neg, classify_f32Neg_eq_inf_not]

/-- Settles O8: the case distinctions of the sum and the product, and the difference as a sum. -/
theorem naNResultsAndTheirQuietBit : Obligations.NaNResultsAndTheirQuietBit := by
  intro n a b
  obtain ⟨hadd, haddq⟩ := isNaN_iff_and_quiet (f32Add_nan_cases n a b)
  obtain ⟨hsub, hsubq⟩ := isNaN_iff_and_quiet (f32Add_nan_cases n a (f32Neg b))
  obtain ⟨hmul, hmulq⟩ := isNaN_iff_and_quiet (f32Mul_nan_cases n a b)
  exact ⟨hadd, hsub.trans (addInvalid_f32Neg a b), hmul, haddq, hsubq, hmulq⟩

/-- Settles O57: each class of operands by its equation, the difference as the sum with the second sign inverted. -/
theorem infiniteOperandsGiveInfinities : Obligations.InfiniteOperandsGiveInfinities := by
  intro n a b s t m
  refine ⟨fun ha hb => ⟨?_, ?_, ?_, ?_, fun hm => ⟨?_, ?_⟩⟩, fun ha hb => ⟨fun hst => ?_, fun hst => ?_, ?_⟩⟩
  · rw [f32Add_inf_finite ha hb, classify_f32Inf]
  · rw [f32Add_finite_inf hb ha, classify_f32Inf]
  · rw [f32Sub_eq, f32Add_inf_finite ha (classify_f32Neg b t m hb), classify_f32Inf]
  · rw [f32Sub_eq, f32Add_finite_inf hb (classify_f32Neg_inf a s ha), classify_f32Inf]
  · rw [f32Mul_inf_finite ha hb, if_neg hm, classify_f32Inf]
  · rw [f32Mul_finite_inf hb ha, if_neg hm, classify_f32Inf, bne_comm]
  · rw [f32Add_inf_inf ha hb, if_pos hst, classify_f32Inf]
  · rw [f32Sub_eq, f32Add_inf_inf ha (classify_f32Neg_inf b t hb), if_pos (Bool.eq_not_of_ne hst), classify_f32Inf]
  · rw [f32Mul_inf_inf ha hb, classify_f32Inf]

end Sys2Proof.Machine
end

section
/-! PROOFS. The comparisons (00_scope.md R11) are the order of the integers with an infinity at either end. -/

namespace Sys2Proof.Machine

/-- What a class stands for in the extended order; a NaN stands for nothing. -/
def FClass.extended : FClass → Option (WithBot (WithTop Int))
  | .nan => none
  | .inf neg => some (if neg then ⊥ else ⊤)
  | .finite neg mag => some ((signed neg mag : WithTop Int) : WithBot (WithTop Int))

@[simp] theorem FClass.extended_nan : FClass.extended .nan = none := rfl
@[simp] theorem FClass.extended_inf_false : FClass.extended (.inf false) = some ⊤ := rfl
@[simp] theorem FClass.extended_inf_true : FClass.extended (.inf true) = some ⊥ := rfl
@[simp] theorem FClass.extended_finite (neg : Bool) (mag : Nat) :
    FClass.extended (.finite neg mag) = some ((signed neg mag : WithTop Int) : WithBot (WithTop Int)) := rfl

/-- `f32_gt` is the strict order of what the operands stand for. -/
theorem f32Gt_iff (a b : F32) : f32Gt a b = true ↔
    ∃ x y, (classify a).extended = some x ∧ (classify b).extended = some y ∧ y < x := by
  unfold f32Gt
  cases classify a with
  | nan => simp
  | inf s =>
    cases classify b with
    | nan => simp
    | inf t => cases s <;> cases t <;> simp
    | finite t l =>
      cases s
      · have hlt : ((signed t l : WithTop Int) : WithBot (WithTop Int)) < ⊤ := WithBot.coe_lt_coe.2 (WithTop.coe_lt_top _)
        simp [hlt]
      · simp
  | finite s m =>
    cases classify b with
    | nan => simp
    | inf t => cases t <;> simp
    | finite t l => simp

theorem f32Gt_trans {a b c : F32} (hab : f32Gt a b = true) (hbc : f32Gt b c = true) : f32Gt a c = true := by
  obtain ⟨x, y, hx, hy, hyx⟩ := (f32Gt_iff a b).1 hab
  obtain ⟨y', z, hy', hz, hzy⟩ := (f32Gt_iff b c).1 hbc
  obtain rfl : y = y' := Option.some.inj (hy.symm.trans hy')
  exact (f32Gt_iff a c).2 ⟨x, z, hx, hz, hzy.trans hyx⟩

/-- Finite operands are compared by value, so +0.0 and -0.0 are equal. -/
theorem f32Gt_finite {a b : F32} {s t : Bool} {m l : Nat} (ha : classify a = .finite s m) (hb : classify b = .finite t l) :
    f32Gt a b = true ↔ signed t l < signed s m := by simp only [f32Gt, ha, hb, decide_eq_true_eq]

/-- `f32Gt_asymm` with the comparison that is its mirror image. -/
theorem not_f32Gt_and_f32Lt (a b : F32) : ¬ (f32Gt a b = true ∧ f32Lt a b = true) := by
  rintro ⟨hgt, hlt⟩
  have h := f32Gt_asymm a b
  rw [f32Lt] at hlt
  simp [hgt, hlt] at h

/-- Settles O9: by the order of the extended values. -/
theorem comparisonsAreOrdered : Obligations.ComparisonsAreOrdered := by
  refine ⟨fun a b h => ?_, fun a b c => f32Gt_trans, not_f32Gt_and_f32Lt,
    fun a b s m t l ha hb => ⟨f32Gt_finite ha hb, f32Gt_finite hb ha⟩, fun a s m ha => ?_, by decide, by decide⟩
  · rcases h with h | h
    · have ha := (isNaN_iff a).1 h
      exact ⟨f32Gt_nan_left a b ha, f32Gt_nan_right b a ha⟩
    · have hb := (isNaN_iff b).1 h
      exact ⟨f32Gt_nan_right a b hb, f32Gt_nan_left b a hb⟩
  · have htop : classify 0x7F800000#32 = .inf false := by decide
    have hbot : classify 0xFF800000#32 = .inf true := by decide
    simp only [f32Gt, f32Lt, htop, hbot, ha, Bool.not_false, and_self]

end Sys2Proof.Machine
end

section
/-! PROOFS. The width of `bit_count` (00_scope.md R6, 10_state.md R31). -/

namespace Sys2Proof.Machine

/-- `bit_count` has BC_BITS bits. -/
def BitCountFits (s : State) : Prop := s.bitCount < 2 ^ bcBits s.params.codeBytes

theorem bitCountFits_of_eq {s t : State} (hp : t.params = s.params) (hb : t.bitCount = s.bitCount) (h : BitCountFits s) :
    BitCountFits t := by rw [BitCountFits, hp, hb]; exact h

theorem bitCountFits_of_le_one {s : State} (h : s.bitCount ≤ 1) : BitCountFits s := by
  have := frame_lt_bcBits s.params.codeBytes
  unfold BitCountFits
  omega

/-- BC_BITS is the least width that holds 8L + 1. -/
theorem bcBits_le {l n : Nat} (h : 8 * l + 1 < 2 ^ n) : bcBits l ≤ n := (Nat.log2_lt (by omega)).2 h

theorem performFd_bitCountFits (o : FdOp) {s : State} (h : BitCountFits s) : BitCountFits (performFd o s) := by
  cases o with
  | nobit => exact h
  | ignore => exact h
  | sync => exact bitCountFits_of_le_one (Nat.le_refl 1)
  | store b => exact nextBitCount_lt s
  | accept b => exact bitCountFits_of_le_one (Nat.zero_le 1)
  | reject b => exact bitCountFits_of_le_one (Nat.zero_le 1)
  | overflow b => exact bitCountFits_of_le_one (Nat.zero_le 1)

theorem bitPart_bitCountFits (u : Bool) {s : State} (h : BitCountFits s) : BitCountFits (bitPart u s) := by
  unfold bitPart
  split
  · exact performFd_bitCountFits _ h
  · cases u <;> exact h

theorem cyclePart_bitCountFits (sample : Option Sample) (u : Bool) {s : State} (h : BitCountFits s) :
    BitCountFits (cyclePart sample u s) := by
  have hbit : BitCountFits (bitPart u (clearStrobes s)) := bitPart_bitCountFits u h
  cases sample with
  | none => exact hbit
  | some x => exact bitCountFits_of_eq (samplePart_params x _) (samplePart_bitCount x _) hbit

/-- The FrameDecoder alone writes `bit_count`, in a cycle or performed alone, and RESET clears it. -/
theorem effect_bitCountFits (i : Instr) {s : State} (h : BitCountFits s) : BitCountFits (effect i s) := by
  cases i with
  | nop => exact cyclePart_bitCountFits none false h
  | tick => exact cyclePart_bitCountFits none true h
  | sample x => exact cyclePart_bitCountFits (some x) false h
  | sampleTick x => exact cyclePart_bitCountFits (some x) true h
  | reset => exact bitCountFits_of_le_one (Nat.zero_le 1)
  | teStep k x => exact bitCountFits_of_eq (performTe_params ..) (performTe_bitCount ..) h
  | teComplete k x => exact bitCountFits_of_eq (performTe_params ..) (performTe_bitCount ..) h
  | sdNone | sdSet0 | sdSet1 | sdHold => exact h
  | dvIdle | dvCount | dvWrap | bitNone | bitSample => exact h
  | fdNobit => exact performFd_bitCountFits .nobit h
  | fdIgnore => exact performFd_bitCountFits .ignore h
  | fdSync => exact performFd_bitCountFits .sync h
  | fdStore b => exact performFd_bitCountFits (.store b) h
  | fdAccept b => exact performFd_bitCountFits (.accept b) h
  | fdReject b => exact performFd_bitCountFits (.reject b) h
  | fdOverflow b => exact performFd_bitCountFits (.overflow b) h

/-- Settles O59: an operation that answers answers its effect, which keeps the width. -/
theorem bitCountKeepsItsWidth : Obligations.BitCountKeepsItsWidth := by
  refine ⟨fun l => ⟨frame_lt_bcBits l, fun n => bcBits_le⟩, fun i s t hexec h => ?_⟩
  rw [exec_next hexec]
  exact effect_bitCountFits i h

end Sys2Proof.Machine
end

section
/-! PROOFS. The tones and the level under every operation (10_state.md R20, R25 to R28, R34): each tone is updated by its own TE
operation, the SD operations alone write the level, and nothing writes the configuration. -/

namespace Sys2Proof.Machine

variable (k : Tone) (x : Sample) (u : Bool) (s : State)

@[simp] theorem clearStrobes_tone : (clearStrobes s).tone k = s.tone k := by cases k <;> rfl

@[simp] theorem bitPart_tone : (bitPart u s).tone k = s.tone k := by cases k <;> simp

@[simp] theorem performDv_tone (o : DvOp) : (performDv o s).tone k = s.tone k := by cases k <;> simp

@[simp] theorem performBs_tone (o : BsOp) : (performBs o s).tone k = s.tone k := by cases k <;> simp

@[simp] theorem performFd_tone (o : FdOp) : (performFd o s).tone k = s.tone k := by cases k <;> simp

@[simp] theorem samplePart_tone : (samplePart x s).tone k = (afterUpdates x s).tone k := performSd_tone _ k _

/-! The TE operation of a sample cycle, and what it does to its tone. -/

theorem teChoice_eq_complete_iff :
    teChoice s k = .complete ↔ (s.tone k).cnt.toNat + 1 = s.cfg.window.toNat := by
  unfold teChoice; split <;> simp_all

theorem teChoice_eq_step_iff : teChoice s k = .step ↔ (s.tone k).cnt.toNat + 1 ≠ s.cfg.window.toNat := by
  unfold teChoice; split <;> simp_all

/-- The bit path changes nothing that selects a TE operation. -/
theorem teChoice_afterBitPart : teChoice (bitPart u (clearStrobes s)) k = teChoice s k := by
  simp only [teChoice, bitPart_tone, clearStrobes_tone, bitPart_cfg, clearStrobes_cfg]

/-- Each tone is updated by its own operation, on a state that still holds the tone. -/
theorem afterUpdates_tone :
    ∃ v : State, v.tone k = s.tone k ∧ (afterUpdates x s).tone k = (performTe (teChoice s k) k x v).tone k := by
  cases k with
  | t0 => exact ⟨s, rfl, performTe_other _ .t1 x _ .t0 (by decide)⟩
  | t1 => exact ⟨_, performTe_other s .t0 x _ .t1 (by decide), rfl⟩

/-- TE_STEP writes no magnitude (40_tone_estimator.md R101). -/
theorem performTe_step_mag (j : Tone) : ((performTe .step j x s).tone k).mag = (s.tone k).mag := by
  by_cases h : k = j
  · subst h; rw [performTe, teStep_tone]
  · rw [performTe_other s j x .step k h]

/-- A window counter counts modulo W (R25, R106). -/
theorem samplePart_cnt (h : (s.tone k).cnt.toNat < s.cfg.window.toNat) :
    ((samplePart x s).tone k).cnt.toNat = ((s.tone k).cnt.toNat + 1) % s.cfg.window.toNat := by
  obtain ⟨v, hv, htone⟩ := afterUpdates_tone k x s
  rw [samplePart_tone, htone]
  cases hc : teChoice s k with
  | complete =>
    rw [(teChoice_eq_complete_iff k s).1 hc, Nat.mod_self, performTe, teComplete_tone]; rfl
  | step =>
    have hne := (teChoice_eq_step_iff k s).1 hc
    have hW := s.cfg.window.isLt
    rw [performTe, teStep_tone, hv, increment_toNat _ _ (by omega), Nat.mod_eq_of_lt (by omega)]

/-- A magnitude stays where its window does not complete (R26). -/
theorem samplePart_mag (h : (s.tone k).cnt.toNat + 1 ≠ s.cfg.window.toNat) :
    ((samplePart x s).tone k).mag = (s.tone k).mag := by
  obtain ⟨v, hv, htone⟩ := afterUpdates_tone k x s
  rw [samplePart_tone, htone, (teChoice_eq_step_iff k s).2 h, performTe_step_mag, hv]

/-! The level. -/

/-- An SD operation leaves the level and its validity, or decides. -/
theorem performSd_level_cases (o : SdOp) :
    ((performSd o s).symLevel = s.symLevel ∧ (performSd o s).symValid = s.symValid) ∨
      (o ≠ .none ∧ (performSd o s).symValid = true) := by
  cases o with
  | none | hold => exact .inl ⟨rfl, rfl⟩
  | set0 | set1 => exact .inr ⟨by decide, rfl⟩

/-- The sample path leaves the level and its validity, or decides where both windows complete. -/
theorem samplePart_level_cases :
    ((samplePart x s).symLevel = s.symLevel ∧ (samplePart x s).symValid = s.symValid) ∨
      (teChoice s .t0 = .complete ∧ teChoice s .t1 = .complete ∧ (samplePart x s).symValid = true) := by
  rcases performSd_level_cases (afterUpdates x s) (sdSelected x s) with h | ⟨hsd, hvalid⟩
  · exact .inl (by simpa [samplePart] using h)
  · have hboth : teChoice s .t0 = .complete ∧ teChoice s .t1 = .complete := by
      by_contra hte
      exact hsd (if_neg hte)
    obtain ⟨h0, h1⟩ := hboth
    exact .inr ⟨h0, h1, hvalid⟩

/-- So does a cycle. -/
theorem cyclePart_level_cases (sample : Option Sample) :
    ((cyclePart sample u s).symLevel = s.symLevel ∧ (cyclePart sample u s).symValid = s.symValid) ∨
      (sample ≠ none ∧ teChoice s .t0 = .complete ∧ teChoice s .t1 = .complete ∧
        (cyclePart sample u s).symValid = true) := by
  cases sample with
  | none => exact .inl (by simp [cyclePart])
  | some x =>
    have h := samplePart_level_cases x (bitPart u (clearStrobes s))
    simp only [teChoice_afterBitPart, bitPart_symLevel, bitPart_symValid, clearStrobes_symLevel,
      clearStrobes_symValid] at h
    exact h.imp_right fun h => ⟨by simp, h⟩

/-- Every operation leaves the level and its validity, or decides, or is RESET. -/
theorem effect_level_cases (i : Instr) :
    ((effect i s).symLevel = s.symLevel ∧ (effect i s).symValid = s.symValid) ∨ i = .reset ∨
      ((effect i s).symValid = true ∧ (i = .sdSet0 ∨ i = .sdSet1 ∨
        ((∃ x, i = .sample x ∨ i = .sampleTick x) ∧ teChoice s .t0 = .complete ∧ teChoice s .t1 = .complete))) := by
  cases i with
  | sample x =>
    exact (cyclePart_level_cases false s (some x)).imp_right fun ⟨_, h0, h1, hv⟩ =>
      .inr ⟨hv, .inr (.inr ⟨⟨x, .inl rfl⟩, h0, h1⟩)⟩
  | sampleTick x =>
    exact (cyclePart_level_cases true s (some x)).imp_right fun ⟨_, h0, h1, hv⟩ =>
      .inr ⟨hv, .inr (.inr ⟨⟨x, .inr rfl⟩, h0, h1⟩)⟩
  | reset => exact .inr (.inl rfl)
  | sdSet0 => exact .inr (.inr ⟨rfl, .inl rfl⟩)
  | sdSet1 => exact .inr (.inr ⟨rfl, .inr (.inl rfl)⟩)
  | _ => exact .inl (by simp [effect, cyclePart, performSd, sdNone, sdHold])

/-! What no operation writes, and the magnitudes. -/

/-- What the host has set and will drive is the same. -/
def SameSetting (s t : State) : Prop :=
  t.params = s.params ∧ t.cfg = s.cfg ∧ t.cfgOpen = s.cfgOpen ∧ t.inputs = s.inputs

theorem cyclePart_sameSetting (sample : Option Sample) : SameSetting s (cyclePart sample u s) := by
  cases sample <;> simp [SameSetting, cyclePart]

theorem effect_sameSetting (i : Instr) : SameSetting s (effect i s) := by
  cases i with
  | nop | tick | sample | sampleTick => exact cyclePart_sameSetting _ s _
  | _ => simp [SameSetting, effect]

/-- A cycle writes a magnitude only where a sample completes its window. -/
theorem cyclePart_mag (sample : Option Sample) (h : sample = none ∨ (s.tone k).cnt.toNat + 1 ≠ s.cfg.window.toNat) :
    ((cyclePart sample u s).tone k).mag = (s.tone k).mag := by
  cases sample with
  | none => simp [cyclePart]
  | some x =>
    have hne := h.resolve_left (by simp)
    rw [cyclePart, samplePart_mag k x _ (by simpa using hne), bitPart_tone, clearStrobes_tone]

/-! The obligations. -/

/-- Settles O14: a sample cycle updates each tone once, and each update counts modulo W. -/
theorem windowCounterCountsModuloW : Obligations.WindowCounterCountsModuloW := by
  intro s x hlegal h0 h1
  refine ⟨_, exec_of_legal (.sample x) s hlegal, ?_⟩
  have hcnt : ∀ k, (s.tone k).cnt.toNat < s.cfg.window.toNat →
      ((effect (.sample x) s).tone k).cnt.toNat = ((s.tone k).cnt.toNat + 1) % s.cfg.window.toNat := fun k h => by
    simpa [effect, cyclePart] using samplePart_cnt k x (bitPart false (clearStrobes s)) (by simpa using h)
  exact ⟨hcnt .t0 h0, hcnt .t1 h1⟩

/-- Settles O44: no operation's effect touches them. -/
theorem configurationIsReadOnly : Obligations.ConfigurationIsReadOnly := by
  intro i s t hexec
  rw [exec_next hexec]
  exact effect_sameSetting s i

/-- Settles O45: an operation that leaves another level decides, or is RESET. -/
theorem onlyDecisionsChangeTheLevel : Obligations.OnlyDecisionsChangeTheLevel := by
  intro i s t hexec hne
  obtain rfl := exec_next hexec
  rcases effect_level_cases s i with ⟨hsame, -⟩ | hreset | ⟨hvalid, hset0 | hset1 | ⟨hsample, h0, h1⟩⟩
  · exact absurd hsame hne
  · exact .inr (.inr (.inl hreset))
  · exact .inl hset0
  · exact .inr (.inl hset1)
  · exact .inr (.inr (.inr ⟨hsample, (teChoice_eq_complete_iff .t0 s).1 h0, (teChoice_eq_complete_iff .t1 s).1 h1, hvalid⟩))

/-- Settles O46: TE_STEP and the other sub-blocks' operations write no magnitude, and a sample only that of a completed window. -/
theorem onlyCompletedWindowsChangeTheMagnitude : Obligations.OnlyCompletedWindowsChangeTheMagnitude := by
  intro i s t k hexec hne
  obtain rfl := exec_next hexec
  have sampled : ∀ x u, effect i s = cyclePart (some x) u s → (s.tone k).cnt.toNat + 1 = s.cfg.window.toNat :=
    fun x u he => by
      by_contra h
      exact hne (he ▸ cyclePart_mag k u s (some x) (.inr h))
  cases i with
  | reset => exact .inl rfl
  | teComplete j x =>
    by_cases h : k = j
    · exact .inr (.inl ⟨x, by rw [h]⟩)
    · exact absurd (congrArg ToneState.mag (performTe_other s j x .complete k h)) hne
  | sample x => exact .inr (.inr ⟨⟨x, .inl rfl⟩, sampled x false rfl⟩)
  | sampleTick x => exact .inr (.inr ⟨⟨x, .inr rfl⟩, sampled x true rfl⟩)
  | teStep j x => exact absurd (performTe_step_mag k x s j) hne
  | nop | tick => exact absurd (cyclePart_mag k _ s none (.inl rfl)) hne
  | sdNone | sdSet0 | sdSet1 | sdHold => exact absurd (congrArg ToneState.mag (performSd_tone _ k s)) hne
  | dvIdle | dvCount | dvWrap => exact absurd (congrArg ToneState.mag (performDv_tone k s _)) hne
  | bitNone | bitSample => exact absurd (congrArg ToneState.mag (performBs_tone k s _)) hne
  | fdNobit | fdIgnore | fdSync | fdStore | fdAccept | fdReject | fdOverflow =>
    exact absurd (congrArg ToneState.mag (performFd_tone k s _)) hne

/-- Settles O47: an operation other than RESET leaves the validity or decides. -/
theorem levelStaysValidUntilReset : Obligations.LevelStaysValidUntilReset := by
  intro i s t hexec hne hvalid
  obtain rfl := exec_next hexec
  rcases effect_level_cases s i with ⟨-, hsame⟩ | hreset | ⟨hdecided, -⟩
  · rw [hsame, hvalid]
  · exact absurd hreset hne
  · exact hdecided

/-- Settles O58: `State.outputs` reads each port from its register. -/
theorem outputsShowTheRegisters : Obligations.OutputsShowTheRegisters :=
  fun _ => ⟨rfl, rfl, rfl, rfl, rfl, rfl, rfl, rfl, rfl, rfl, rfl, rfl⟩

end Sys2Proof.Machine
end

section
/-! PROOFS. The block's invariant (10_state.md's summary, 43_frame_decoder.md R171): which parts of it each path of a cycle keeps. -/

namespace Sys2Proof.Machine

variable {s t : State}

/-! What a legal configuration gives the counters (30_encoding.md R91, 42_bit_sampler.md R140). -/

theorem bounds_of_legal (h : legalConfig s = true) : 1 ≤ s.params.codeBytes ∧ 1 ≤ s.cfg.window.toNat ∧
    1 ≤ s.cfg.bitRate.toNat ∧ s.cfg.bitRate.toNat ≤ 1000000 := by
  simp only [legalConfig, paramsLegal, cfgLegal, Bool.and_eq_true, decide_eq_true_eq] at h
  obtain ⟨⟨hL, -⟩, hW, hpos, hle, -⟩ := h
  exact ⟨hL, hW, hpos, hle⟩

theorem codeBytes_pos_of_legal (h : legalConfig s = true) : 1 ≤ s.params.codeBytes := (bounds_of_legal h).1

theorem window_pos_of_legal (h : legalConfig s = true) : 0 < s.cfg.window.toNat := by
  obtain ⟨-, hW, -⟩ := bounds_of_legal h
  exact hW

theorem bitPeriod_pos_of_legal (h : legalConfig s = true) : 0 < bitPeriod s.cfg := by
  obtain ⟨-, -, hpos, hle⟩ := bounds_of_legal h
  exact Nat.div_pos hle hpos

/-- A bit period fits the divider. -/
theorem bitPeriod_lt (c : Cfg) : bitPeriod c < 2 ^ 20 := Nat.lt_of_le_of_lt (Nat.div_le_self _ _) (by decide)

/-! The counters. -/

/-- The divider counts ticks modulo P (42_bit_sampler.md R142, R143). -/
theorem bitPart_divCnt (u : Bool) (h : s.divCnt.toNat < bitPeriod s.cfg) :
    (bitPart u s).divCnt.toNat = if u then (s.divCnt.toNat + 1) % bitPeriod s.cfg else s.divCnt.toNat := by
  have hP := bitPeriod_lt s.cfg
  cases u with
  | false => rfl
  | true =>
    by_cases hfire : s.divCnt.toNat + 1 = bitPeriod s.cfg
    · rw [bitPart, if_pos ⟨rfl, hfire⟩, performFd_divCnt, if_pos rfl, hfire, Nat.mod_self]; rfl
    · rw [bitPart, if_neg fun hc => hfire hc.2, if_pos rfl, if_pos rfl, Nat.mod_eq_of_lt (by omega)]
      exact increment_toNat _ _ (by omega)

theorem bitPart_countersOk (u : Bool) (hP : 0 < bitPeriod s.cfg) (h : CountersOk s) : CountersOk (bitPart u s) := by
  obtain ⟨heq, hlt, hdiv⟩ := h
  refine ⟨by simpa using heq, by simpa using hlt, ?_⟩
  rw [bitPart_divCnt u hdiv, bitPart_cfg]
  split
  · exact Nat.mod_lt _ hP
  · exact hdiv

theorem samplePart_countersOk (x : Sample) (h : CountersOk s) : CountersOk (samplePart x s) := by
  obtain ⟨heq, hlt, hdiv⟩ := h
  have c0 : (samplePart x s).tone0.cnt.toNat = (s.tone0.cnt.toNat + 1) % s.cfg.window.toNat :=
    samplePart_cnt .t0 x s hlt
  have c1 : (samplePart x s).tone1.cnt.toNat = (s.tone1.cnt.toNat + 1) % s.cfg.window.toNat :=
    samplePart_cnt .t1 x s (heq ▸ hlt)
  refine ⟨BitVec.eq_of_toNat_eq (by rw [c0, c1, heq]), ?_, by simpa using hdiv⟩
  rw [c0, samplePart_cfg]
  exact Nat.mod_lt _ (by omega)

/-! The FrameDecoder: `FrameOk` and its strobes. -/

/-- The strobes' part of `StrobesOk` (30_encoding.md R89, 43_frame_decoder.md R171 (c)). -/
def FrameStrobesOk (s : State) : Prop := (s.activate = true ↔ s.outcome = 0b01#2) ∧ s.outcome ≠ 0b11#2

theorem frameStrobesOk_of_clear (ha : s.activate = false) (ho : s.outcome = 0b00#2) : FrameStrobesOk s := by
  simp [FrameStrobesOk, ha, ho]

theorem performFd_frameStrobesOk (o : FdOp) (h : ∀ b, o ≠ .overflow b) : FrameStrobesOk (performFd o s) := by
  cases o with
  | nobit | ignore | sync | store => exact frameStrobesOk_of_clear rfl rfl
  | accept => exact ⟨iff_of_true rfl rfl, by simp [performFd, fdAccept]⟩
  | reject => exact ⟨by simp [performFd, fdReject], by simp [performFd, fdReject]⟩
  | overflow b => exact absurd rfl (h b)

/-- A cursor within the frame never selects FD_OVERFLOW (R171 (c)). -/
theorem fdChoice_ne_overflow (fire b : Bool) (h : FrameOk s) (c : Bool) : fdChoice s fire b ≠ .overflow c := by
  obtain ⟨-, -, hsync⟩ := h
  intro ho
  have hcases := fdChoice_cases s fire b
  simp only [ho, reduceCtorEq, false_and, false_or] at hcases
  obtain ⟨-, -, hy, hgt⟩ := hcases
  obtain ⟨-, hle⟩ := hsync hy
  omega

/-- A cleared frame is Idle, with an empty cursor and an empty buffer (R171 (a)). -/
theorem frameOk_of_cleared (hy : s.syncFlag = false) (hc : s.bitCount = 0) (hb : s.buf = clearedBuf s) : FrameOk s :=
  ⟨by rw [BufOk, hb, clearedBuf_length], fun _ => ⟨hc, hb⟩, by simp [hy]⟩

/-- A Syncing decoder has its bytes and a cursor in the frame (R171 (b)). -/
theorem frameOk_of_syncing (hbuf : BufOk s) (hy : s.syncFlag = true) (h1 : 1 ≤ s.bitCount)
    (hL : s.bitCount ≤ 8 * s.params.codeBytes) : FrameOk s :=
  ⟨hbuf, by simp [hy], fun _ => ⟨h1, hL⟩⟩

/-- The selected operation keeps the frame: it does nothing, starts a frame, stores below its end, or clears it. -/
theorem performFd_fdChoice_frameOk (fire b : Bool) (hL : 1 ≤ s.params.codeBytes) (h : FrameOk s) :
    FrameOk (performFd (fdChoice s fire b) s) := by
  obtain ⟨hbuf, hidle, hsync⟩ := h
  rcases fdChoice_cases s fire b with
    ⟨he, -⟩ | ⟨he, -⟩ | ⟨he, -⟩ | ⟨he, -, hy, hlt⟩ | ⟨he, -⟩ | ⟨he, -⟩ | ⟨he, -⟩ <;> rw [he]
  · exact ⟨hbuf, hidle, hsync⟩
  · exact ⟨hbuf, hidle, hsync⟩
  · exact frameOk_of_syncing (clearedBuf_length s) rfl (Nat.le_refl 1) (show 1 ≤ 8 * s.params.codeBytes by omega)
  · have hcount : (fdStore b s).bitCount = s.bitCount + 1 := nextBitCount_eq s hlt.le
    exact frameOk_of_syncing ((nextBuf_length s b).trans hbuf) hy (show 1 ≤ (fdStore b s).bitCount by omega)
      (show (fdStore b s).bitCount ≤ 8 * s.params.codeBytes by omega)
  all_goals exact frameOk_of_cleared rfl rfl rfl

/-- The bit path performs the FD operation its state selects, or none. -/
theorem bitPart_frameOk (u : Bool) (hL : 1 ≤ s.params.codeBytes) (h : FrameOk s) :
    FrameOk (bitPart u s) ∧ FrameStrobesOk (bitPart u s) := by
  unfold bitPart
  split
  · exact ⟨performFd_fdChoice_frameOk (s := bitSample (dvWrap s)) true s.symLevel hL h,
      performFd_frameStrobesOk _ (fdChoice_ne_overflow true s.symLevel h)⟩
  · exact ⟨by cases u <;> exact h, frameStrobesOk_of_clear rfl rfl⟩

/-- The sample path touches nothing of the FrameDecoder. -/
theorem samplePart_frameOk (x : Sample) (h : FrameOk s ∧ FrameStrobesOk s) :
    FrameOk (samplePart x s) ∧ FrameStrobesOk (samplePart x s) := by
  simpa [FrameOk, BufOk, FrameStrobesOk, clearedBuf] using h

/-! The level. -/

/-- A level of 1 has been decided (10_state.md R28). -/
def LevelOk (s : State) : Prop := s.symLevel = true → s.symValid = true

theorem cyclePart_levelOk (sample : Option Sample) (u : Bool) (h : LevelOk s) : LevelOk (cyclePart sample u s) := by
  rcases cyclePart_level_cases u s sample with ⟨hl, hv⟩ | ⟨-, -, -, hv⟩
  · rw [LevelOk, hl, hv]; exact h
  · exact fun _ => hv

/-! The whole invariant. -/

/-- Outside reset the entry state asks nothing. -/
theorem inv_of_running (hopen : s.cfgOpen = false) (hlegal : legalConfig s = true) (hcnt : CountersOk s)
    (hframe : FrameOk s ∧ FrameStrobesOk s) (hlevel : LevelOk s) : s.Inv := by
  obtain ⟨hframe, hact, hout⟩ := hframe
  exact ⟨hlegal, hcnt, by simp [EntryOk, hopen], hframe, hact, hout, hlevel⟩

/-- Reset leaves the entry state (70_reset_and_hazards.md R242). -/
theorem resetRegisters_inv (h : legalConfig s = true) : (resetRegisters s).Inv :=
  ⟨h, ⟨rfl, window_pos_of_legal h, bitPeriod_pos_of_legal h⟩, fun _ => ⟨rfl, rfl, rfl, rfl, rfl⟩,
    frameOk_of_cleared rfl rfl rfl, by simp, by simp, by simp⟩

/-- A configuration may change only in the entry state, whose counters are in range under every one (R250). -/
theorem latchPorts_countersOk (p : Ports) (hlegal : legalConfig (latchPorts p s) = true) (hcnt : CountersOk s)
    (hentry : EntryOk s) (hheld : s.cfgOpen = true ∨ p.cfg = s.cfg) : CountersOk (latchPorts p s) := by
  obtain ⟨heq, hlt, hdiv⟩ := hcnt
  rcases hheld with hopen | hcfg
  · obtain ⟨hcnt0, hdiv0, -⟩ := hentry hopen
    refine ⟨heq, ?_, ?_⟩
    · rw [latchPorts_tone0, hcnt0]; exact window_pos_of_legal hlegal
    · rw [latchPorts_divCnt, hdiv0]; exact bitPeriod_pos_of_legal hlegal
  · exact ⟨heq, by rw [latchPorts_cfg, hcfg]; exact hlt, by rw [latchPorts_cfg, hcfg]; exact hdiv⟩

/-- A cycle without reset keeps every part of the invariant. -/
theorem cyclePart_inv (sample : Option Sample) (u : Bool) (hopen : s.cfgOpen = false) (hlegal : legalConfig s = true)
    (hcnt : CountersOk s) (hframe : FrameOk s) (hlevel : LevelOk s) : (cyclePart sample u s).Inv := by
  obtain ⟨hparams, hcfg, hopen', -⟩ := cyclePart_sameSetting u s sample
  have hbitCnt : CountersOk (bitPart u (clearStrobes s)) := bitPart_countersOk u (bitPeriod_pos_of_legal hlegal) hcnt
  have hbitFrame := bitPart_frameOk (s := clearStrobes s) u (codeBytes_pos_of_legal hlegal) hframe
  refine inv_of_running (hopen'.trans hopen) ((legalConfig_congr hparams hcfg).trans hlegal) ?_ ?_
    (cyclePart_levelOk sample u hlevel)
  · cases sample with
    | none => exact hbitCnt
    | some x => exact samplePart_countersOk x hbitCnt
  · cases sample with
    | none => exact hbitFrame
    | some x => exact samplePart_frameOk x hbitFrame

/-- A step of the FrameDecoder's interface keeps it too. -/
theorem performFd_fdChoice_inv (fire b : Bool) (hopen : s.cfgOpen = false) (hlegal : legalConfig s = true)
    (hcnt : CountersOk s) (hframe : FrameOk s) (hlevel : LevelOk s) : (performFd (fdChoice s fire b) s).Inv := by
  refine inv_of_running ((performFd_cfgOpen _ s).trans hopen)
    ((legalConfig_congr (performFd_params _ s) (performFd_cfg _ s)).trans hlegal) (by simpa [CountersOk] using hcnt)
    ⟨performFd_fdChoice_frameOk fire b (codeBytes_pos_of_legal hlegal) hframe,
      performFd_frameStrobesOk _ (fdChoice_ne_overflow fire b hframe)⟩ ?_
  simpa [LevelOk] using hlevel

/-- Settles O51: the three kinds of step; a changed configuration meets the entry state alone. -/
theorem everyStepKeepsTheInvariant : Obligations.EveryStepKeepsTheInvariant := by
  rintro s t ⟨-, hcnt, hentry, hframe, -, -, hlevel⟩ hstep
  rcases step_cases hstep with ⟨p, -, -, hlegal, rfl⟩ | ⟨p, -, hrst, hheld, hlegal, hcycle⟩ | ⟨fire, b, -, hlegal, rfl⟩
  · exact resetRegisters_inv hlegal
  · rw [cycle_eq] at hcycle
    injection hcycle with hcycle
    subst hcycle
    exact cyclePart_inv _ _ hrst hlegal (latchPorts_countersOk (s := takeStimulus s) p hlegal hcnt hentry hheld)
      hframe hlevel
  · exact performFd_fdChoice_inv (s := { takeStimulus s with cfgOpen := false }) fire b rfl hlegal hcnt hframe hlevel

end Sys2Proof.Machine
end

section
/-! PROOFS. The frame buffer (20_memory.md R61, R64): an access reads and writes one bit, and no operation changes the length. -/

namespace Sys2Proof.Machine

/-- BufWrite assigns one bit of byte j div 8 and keeps every other byte. -/
theorem bufWrite_getD {buf : List Byte} {j : Nat} (b : Bool) (hj : j < 8 * buf.length) (i : Nat) :
    (bufWrite buf j b).getD i 0#8 =
      if i = j / 8 then setBit (buf.getD i 0#8) (7 - j % 8) b else buf.getD i 0#8 := by
  by_cases hi : i = j / 8
  · have hlt : i < buf.length := by omega
    simp [bufWrite, hi ▸ hlt, hi]
  · simp [bufWrite, hi, Ne.symm hi]

/-- Settles O28: the assigned byte by the bits of `setBit`, every other byte as it was. -/
theorem bufWriteAssignsOneBit : Obligations.BufWriteAssignsOneBit := by
  intro buf j b hj
  refine ⟨rfl, bufWrite_length buf j b, fun i k _ => ?_⟩
  rw [bufWrite_getD b hj]
  by_cases hi : i = j / 8
  · rw [if_pos hi, setBit_getLsbD _ _ _ _ (by omega)]
    simp only [hi, true_and]
  · rw [if_neg hi, if_neg fun h => hi h.1]

theorem bufOk_of_eq {s t : State} (hp : t.params = s.params) (hb : t.buf = s.buf) (h : BufOk s) : BufOk t := by
  rw [BufOk, hp, hb]; exact h

/-- An FD operation leaves the buffer, writes a bit of it, or clears it. -/
theorem performFd_bufOk (o : FdOp) {s : State} (h : BufOk s) : BufOk (performFd o s) := by
  cases o with
  | nobit | ignore => exact h
  | store b => exact (nextBuf_length s b).trans h
  | sync | accept | reject | overflow => exact clearedBuf_length s

theorem bitPart_bufOk (u : Bool) {s : State} (h : BufOk s) : BufOk (bitPart u s) := by
  unfold bitPart
  split
  · exact performFd_bufOk _ h
  · cases u <;> exact h

theorem cyclePart_bufOk (sample : Option Sample) (u : Bool) {s : State} (h : BufOk s) : BufOk (cyclePart sample u s) := by
  have hbit : BufOk (bitPart u (clearStrobes s)) := bitPart_bufOk u h
  cases sample with
  | none => exact hbit
  | some x => exact bufOk_of_eq (samplePart_params x _) (samplePart_buf x _) hbit

/-- The FrameDecoder alone writes the buffer, in a cycle or performed alone, and RESET clears it. -/
theorem effect_bufOk (i : Instr) {s : State} (h : BufOk s) : BufOk (effect i s) := by
  cases i with
  | nop | tick | sample | sampleTick => exact cyclePart_bufOk _ _ h
  | reset => exact clearedBuf_length s
  | teStep | teComplete => exact bufOk_of_eq (performTe_params ..) (performTe_buf ..) h
  | sdNone | sdSet0 | sdSet1 | sdHold => exact h
  | dvIdle | dvCount | dvWrap | bitNone | bitSample => exact h
  | fdNobit | fdIgnore | fdSync | fdStore | fdAccept | fdReject | fdOverflow => exact performFd_bufOk _ h

/-- Settles O29: an operation that answers answers its effect; a Syncing cursor n has 1 ≤ n ≤ 8L and the index n - 1. -/
theorem bufferIsNeverOverrun : Obligations.BufferIsNeverOverrun := by
  refine ⟨fun i s t hexec h => ?_, fun s hframe hsync => ?_⟩
  · rw [exec_next hexec]
    exact effect_bufOk i h
  · obtain ⟨-, -, hcursor⟩ := hframe
    obtain ⟨hpos, hle⟩ := hcursor hsync
    rw [payloadIndex_of_pos s hpos]
    omega

end Sys2Proof.Machine
end

section
/-! PROOFS. The level a fired bit carries (20_memory.md R68, 45_cycle.md R206). -/

namespace Sys2Proof.Machine

/-- The P-th tick of a bit period fires a bit with the level of the state it finds (42_bit_sampler.md R143, R144). -/
theorem bitPart_fired {s : State} (h : s.divCnt.toNat + 1 = bitPeriod s.cfg) :
    bitPart true s = performFd (fdChoice s true s.symLevel) (bitSample (dvWrap s)) := if_pos ⟨rfl, h⟩

/-- An Idle decoder starts a frame exactly on a 1 bit (43_frame_decoder.md R165, R166). -/
theorem performFd_fdChoice_syncFlag_of_idle {s t : State} (b : Bool) (hs : s.syncFlag = false) (ht : t.syncFlag = false) :
    (performFd (fdChoice s true b) t).syncFlag = b := by
  cases b <;> simp [fdChoice, hs, ht, performFd, fdIgnore, fdSync]

/-- Settles O26: the bit path runs before the sample path, which writes neither the sampler's strobes nor the decoder's state. -/
theorem bitReadsTheStartOfCycleLevel : Obligations.BitReadsTheStartOfCycleLevel := by
  intro s x hlegal hfire
  have heffect : effect (.sampleTick x) s = samplePart x
      (performFd (fdChoice (clearStrobes s) true s.symLevel) (bitSample (dvWrap (clearStrobes s)))) :=
    congrArg (samplePart x) (bitPart_fired (s := clearStrobes s) hfire)
  refine ⟨_, (exec_of_legal (.sampleTick x) s hlegal).trans (congrArg _ heffect), ?_, ?_, fun hidle => ?_⟩
  · rw [samplePart_bitValid, performFd_bitValid]; rfl
  · rw [samplePart_bitOut, performFd_bitOut]; rfl
  · rw [samplePart_syncFlag]
    exact performFd_fdChoice_syncFlag_of_idle s.symLevel hidle hidle

end Sys2Proof.Machine
end

section
/-! PROOFS. The encoder and the decoder (30_encoding.md R81 to R87): each format's first matching row. -/

namespace Sys2Proof

/-- Settles O1: an operation's word meets no row of its format before its own, whatever the sample, the tone and the bit b. -/
theorem decodeOfEncodeIsIdentity : Obligations.DecodeOfEncodeIsIdentity := by
  intro i
  cases i with
  | nop => exact Machine.decodeEv_vector false false false 0
  | tick => exact Machine.decodeEv_vector false false true 0
  | sample x => exact Machine.decodeEv_vector false true false x
  | sampleTick x => exact Machine.decodeEv_vector false true true x
  | reset => exact Machine.decodeEv_vector true false false 0
  | teStep | teComplete => rfl
  | sdNone | sdSet0 | sdSet1 | sdHold => rfl
  | dvIdle | dvCount | dvWrap => rfl
  | bitNone | bitSample => rfl
  | fdNobit | fdIgnore | fdSync => rfl
  | fdStore b | fdAccept b | fdReject b | fdOverflow b => cases b <;> rfl

/-- Settles O5: the decoder run on the eleven words. -/
theorem wordsOfTheTablesDecode : Obligations.WordsOfTheTablesDecode := by
  unfold Obligations.WordsOfTheTablesDecode
  decide

/-! What the first matching row of a list is. -/

section FirstRow

variable {α : Type} {f : α → Instr} {v : Nat} {a b : α} {l : List α}

theorem firstRow_cons_eq_ok : firstRow f v (b :: l) = .ok a ↔
    ((f b).row.hits v = true ∧ b = a) ∨ ((f b).row.hits v = false ∧ firstRow f v l = .ok a) := by
  cases h : (f b).row.hits v <;> simp [firstRow, h]

theorem mem_and_hits_of_firstRow (h : firstRow f v l = .ok a) : a ∈ l ∧ (f a).row.hits v = true := by
  induction l with
  | nil => cases h
  | cons b l ih =>
    obtain ⟨hb, rfl⟩ | ⟨-, h⟩ := firstRow_cons_eq_ok.1 h
    · exact ⟨List.mem_cons_self, hb⟩
    · exact ⟨List.mem_cons_of_mem b (ih h).1, (ih h).2⟩

theorem exists_firstRow (h : ∃ a ∈ l, (f a).row.hits v = true) : ∃ a, firstRow f v l = .ok a := by
  induction l with
  | nil => simp at h
  | cons b l ih =>
    cases hb : (f b).row.hits v with
    | true => exact ⟨b, firstRow_cons_eq_ok.2 (.inl ⟨hb, rfl⟩)⟩
    | false =>
      obtain ⟨a, ha⟩ := ih (by simpa [hb] using h)
      exact ⟨a, firstRow_cons_eq_ok.2 (.inr ⟨hb, ha⟩)⟩

/-- The last row of a list is answered only where no other row matches. -/
theorem not_hits_of_firstRow_last (ha : a ∉ l) (h : firstRow f v (l ++ [a]) = .ok a) :
    ∀ b ∈ l, (f b).row.hits v = false := by
  induction l with
  | nil => simp
  | cons c l ih =>
    obtain ⟨hac, hal⟩ := List.ne_and_not_mem_of_not_mem_cons ha
    obtain ⟨-, hca⟩ | ⟨hc, h⟩ := firstRow_cons_eq_ok.1 h
    · exact absurd hca.symm hac
    · exact List.forall_mem_cons.2 ⟨hc, ih hal h⟩

end FirstRow

/-! Each decoder: the row it answers with. -/

/-- Neither the tone nor the sample of a TE operation is in its row (R82). -/
theorem row_teOp (o : TeOp) (k : Tone) (x : Sample) : (o.toInstr k x).row = (o.toInstr .t0 0).row := by cases o <;> rfl

theorem decodeEv_row {v : BitVec 3} {x : Sample} {i : Instr} (h : decodeEv v x = .ok i) :
    i.row.width = 3 ∧ i.row.hits v.toNat = true := by
  obtain ⟨hmem, hhits⟩ := mem_and_hits_of_firstRow h
  simp only [List.mem_cons, List.not_mem_nil, or_false] at hmem
  obtain rfl | rfl | rfl | rfl | rfl := hmem <;> exact ⟨rfl, hhits⟩

/-- Past the vectors of R92 an SD vector is read by the rows in their order. -/
theorem decodeSd_ok {v : BitVec 5} {o : SdOp} (h : decodeSd v = .ok o) :
    firstRow SdOp.toInstr v.toNat [.none, .set0, .set1, .hold] = .ok o := by
  unfold decodeSd at h
  split at h
  · cases h
  · exact h

theorem decodeFd_hits {v : BitVec 6} {o : FdOp} (h : decodeFd v = .ok o) : o.toInstr.row.hits v.toNat = true := by
  unfold decodeFd at h
  split at h
  · cases h
  · exact (mem_and_hits_of_firstRow h).2

theorem except_map_eq_ok {ε α β : Type} {d : Except ε α} {f : α → β} {b : β} :
    d.map f = .ok b ↔ ∃ a, d = .ok a ∧ f a = b := by
  cases d <;> simp [Except.map]

/-- An operation is read from a word with the width and the pattern of its row (R81 to R86). -/
theorem decode_row {w : SelectWord} {i : Instr} (h : decode w = .ok i) :
    w.width = i.row.width ∧ i.row.hits w.bits = true := by
  cases w with
  | ev v x =>
    obtain ⟨hwidth, hhits⟩ := decodeEv_row h
    exact ⟨hwidth.symm, hhits⟩
  | te v k x =>
    obtain ⟨o, ho, rfl⟩ := except_map_eq_ok.1 h
    rw [row_teOp]
    exact ⟨by cases o <;> rfl, (mem_and_hits_of_firstRow ho).2⟩
  | sd v =>
    obtain ⟨o, ho, rfl⟩ := except_map_eq_ok.1 h
    exact ⟨by cases o <;> rfl, (mem_and_hits_of_firstRow (decodeSd_ok ho)).2⟩
  | dv v | bs v =>
    obtain ⟨o, ho, rfl⟩ := except_map_eq_ok.1 h
    exact ⟨by cases o <;> rfl, (mem_and_hits_of_firstRow ho).2⟩
  | fd v =>
    obtain ⟨o, ho, rfl⟩ := except_map_eq_ok.1 h
    exact ⟨by cases o <;> rfl, decodeFd_hits ho⟩

/-! The one row of priority 2, SD_HOLD (R83, R87). -/

theorem eq_sdHold_of_priority {i : Instr} (h : i.row.priority = 2) : i = .sdHold := by
  cases i with
  | sdHold => rfl
  | _ => simp [Instr.row] at h

theorem decodeSd_of_decode_sdHold {w : SelectWord} (h : decode w = .ok .sdHold) :
    ∃ v, w = .sd v ∧ decodeSd v = .ok .hold := by
  obtain ⟨hwidth, -⟩ := decode_row h
  cases w with
  | sd v =>
    obtain ⟨o, ho, hop⟩ := except_map_eq_ok.1 h
    cases o with
    | hold => exact ⟨v, rfl, ho⟩
    | none | set0 | set1 => cases hop
  | _ => cases hwidth

/-- SD_HOLD is the last row of its format. -/
theorem not_hits_of_decodeSd_hold {v : BitVec 5} (h : decodeSd v = .ok .hold) (o : SdOp)
    (hp : o.toInstr.row.priority = 1) : o.toInstr.row.hits v.toNat = false := by
  have hskip := not_hits_of_firstRow_last (l := [SdOp.none, .set0, .set1]) (by decide) (decodeSd_ok h)
  cases o with
  | none | set0 | set1 => exact hskip _ (by decide)
  | hold => cases hp

/-- Settles O2: by the row each decoder answers with, and the place of SD_HOLD in its list. -/
theorem decodedWordHasItsRowsPattern : Obligations.DecodedWordHasItsRowsPattern := by
  intro w i h
  obtain ⟨hwidth, hhits⟩ := decode_row h
  refine ⟨hwidth, hhits, fun hp o ho => ?_⟩
  obtain rfl := eq_sdHold_of_priority hp
  obtain ⟨v, rfl, hv⟩ := decodeSd_of_decode_sdHold h
  exact not_hits_of_decodeSd_hold hv o ho

/-! R87: the patterns of one format and priority have no vector in common but those of R92. -/

/-- The patterns agree on every bit that both of them fix. -/
def TableRow.overlaps (r r' : TableRow) : Bool := r.val &&& r'.mask == r'.val &&& r.mask

theorem overlaps_of_hits {r r' : TableRow} {v : Nat} (h : r.hits v = true) (h' : r'.hits v = true) :
    r.overlaps r' = true := by
  simp only [TableRow.hits, beq_iff_eq] at h h'
  simp only [TableRow.overlaps, beq_iff_eq, ← h, ← h']
  exact Nat.and_right_comm v r.mask r'.mask

/-- The rows of format EV (R81). -/
def evRows : List TableRow :=
  [Instr.nop, .tick, .sample 0, .sampleTick 0, .reset].map Instr.row

theorem row_mem_evRows {i : Instr} (h : i.row.width = 3) : i.row ∈ evRows := by
  cases i with
  | nop | tick | sample | sampleTick | reset => simp [evRows, Instr.row]
  | _ => cases h

/-- The rows of format FD (R86). -/
def fdRows : List TableRow :=
  [FdOp.nobit, .ignore, .sync, .store false, .accept false, .reject false, .overflow false].map fun o => o.toInstr.row

theorem row_mem_fdRows (o : FdOp) : o.toInstr.row ∈ fdRows := by
  cases o <;> simp [fdRows, FdOp.toInstr, Instr.row]

theorem evRow_eq_of_overlaps : ∀ r ∈ evRows, ∀ r' ∈ evRows, r.overlaps r' = true → r = r' := by decide

theorem fdRow_eq_of_overlaps : ∀ r ∈ fdRows, ∀ r' ∈ fdRows, r.overlaps r' = true → r = r' := by decide

theorem teOp_eq_of_overlaps (a b : TeOp) :
    (a.toInstr .t0 0).row.overlaps (b.toInstr .t0 0).row = true → a = b := by
  cases a <;> cases b <;> decide

theorem dvOp_eq_of_overlaps (a b : DvOp) : a.toInstr.row.overlaps b.toInstr.row = true → a = b := by
  cases a <;> cases b <;> decide

theorem bsOp_eq_of_overlaps (a b : BsOp) : a.toInstr.row.overlaps b.toInstr.row = true → a = b := by
  cases a <;> cases b <;> decide

/-- In format SD the rows of SD_SET0 and SD_SET1 alone overlap at one priority (R83). -/
theorem sdOp_eq_or_of_overlaps (a b : SdOp) : a.toInstr.row.overlaps b.toInstr.row = true →
    a.toInstr.row.priority = b.toInstr.row.priority →
    a = b ∨ (a = .set0 ∧ b = .set1) ∨ (a = .set1 ∧ b = .set0) := by
  cases a <;> cases b <;> decide

/-- What has both of their patterns has gt0 = lt0 = 1, so R92 names it. -/
theorem gtAndLt_of_hits_set0_set1 : ∀ v : BitVec 5, Instr.sdSet0.row.hits v.toNat = true →
    Instr.sdSet1.row.hits v.toNat = true → v.getLsbD 3 = true ∧ v.getLsbD 2 = true := by decide

theorem sdOp_eq_of_hits {v : BitVec 5} (hv : ¬ (v.getLsbD 3 = true ∧ v.getLsbD 2 = true)) {a b : SdOp}
    (ha : a.toInstr.row.hits v.toNat = true) (hb : b.toInstr.row.hits v.toNat = true)
    (hp : a.toInstr.row.priority = b.toInstr.row.priority) : a = b := by
  obtain h | ⟨rfl, rfl⟩ | ⟨rfl, rfl⟩ := sdOp_eq_or_of_overlaps a b (overlaps_of_hits ha hb) hp
  · exact h
  · exact absurd (gtAndLt_of_hits_set0_set1 v ha hb) hv
  · exact absurd (gtAndLt_of_hits_set0_set1 v hb ha) hv

/-! R93: the patterns of a format leave out no vector but those of R92. -/

theorem exists_decodeEv (v : BitVec 3) (x : Sample) : ∃ i, decodeEv v x = .ok i := by
  have hv : ∀ v : BitVec 3, Machine.evVector (v.getLsbD 2) (v.getLsbD 1) (v.getLsbD 0) = v := by decide
  rw [← hv v, Machine.decodeEv_vector]
  exact ⟨_, rfl⟩

theorem exists_decodeTe (v : BitVec 1) : ∃ o, decodeTe v = .ok o := by
  have hcover : ∀ v : BitVec 1, ∃ o ∈ [TeOp.step, .complete], (o.toInstr .t0 0).row.hits v.toNat = true := by decide
  exact exists_firstRow (hcover v)

theorem exists_decodeDv (v : BitVec 2) : ∃ o, decodeDv v = .ok o := by
  have hcover : ∀ v : BitVec 2, ∃ o ∈ [DvOp.idle, .count, .wrap], o.toInstr.row.hits v.toNat = true := by decide
  exact exists_firstRow (hcover v)

theorem exists_decodeBs (v : BitVec 1) : ∃ o, decodeBs v = .ok o := by
  have hcover : ∀ v : BitVec 1, ∃ o ∈ [BsOp.none, .sample], o.toInstr.row.hits v.toNat = true := by decide
  exact exists_firstRow (hcover v)

theorem exists_decodeSd {v : BitVec 5} (h0 : ¬ (v.getLsbD 3 = true ∧ v.getLsbD 2 = true))
    (h1 : ¬ (v.getLsbD 1 = true ∧ v.getLsbD 0 = true)) : ∃ o, decodeSd v = .ok o := by
  have hcover : ∀ v : BitVec 5, ∃ o ∈ [SdOp.none, .set0, .set1, .hold], o.toInstr.row.hits v.toNat = true := by decide
  rw [decodeSd, if_neg (by simp only [Bool.or_eq_true, Bool.and_eq_true, h0, h1, or_self, not_false_eq_true])]
  exact exists_firstRow (hcover v)

theorem exists_decodeFd {v : BitVec 6}
    (h : ¬ (v.getLsbD 5 = true ∧ v.getLsbD 4 = true ∧ v.getLsbD 2 = true ∧ v.getLsbD 1 = true)) :
    ∃ o, decodeFd v = .ok o := by
  have hcover : ∀ v : BitVec 6,
      ¬ (v.getLsbD 5 = true ∧ v.getLsbD 4 = true ∧ v.getLsbD 2 = true ∧ v.getLsbD 1 = true) →
      ∃ o ∈ [FdOp.nobit, .ignore, .sync, .store (v.getLsbD 3), .accept (v.getLsbD 3), .reject (v.getLsbD 3),
        .overflow (v.getLsbD 3)], o.toInstr.row.hits v.toNat = true := by decide
  rw [decodeFd, if_neg (by simpa only [Bool.and_eq_true, and_assoc] using h)]
  exact exists_firstRow (hcover v h)

/-- Settles O3: the patterns of each format cover its vectors, and two that one vector has overlap. -/
theorem everyReachableVectorMatchesOneRow : Obligations.EveryReachableVectorMatchesOneRow := by
  refine ⟨fun v x => ⟨exists_decodeEv v x, fun i j hi hj hvi hvj => ?ev⟩,
    fun v => ⟨exists_decodeTe v, fun a b k x ha hb => ?te⟩,
    fun v => ⟨exists_decodeDv v, fun a b ha hb => dvOp_eq_of_overlaps a b (overlaps_of_hits ha hb)⟩,
    fun v => ⟨exists_decodeBs v, fun a b ha hb => bsOp_eq_of_overlaps a b (overlaps_of_hits ha hb)⟩,
    fun v h0 h1 => ⟨exists_decodeSd h0 h1, fun a b => sdOp_eq_of_hits h0⟩,
    fun v h => ⟨exists_decodeFd h, fun a b ha hb => ?fd⟩⟩
  case ev => exact evRow_eq_of_overlaps _ (row_mem_evRows hi) _ (row_mem_evRows hj) (overlaps_of_hits hvi hvj)
  case te =>
    rw [row_teOp] at ha hb
    exact teOp_eq_of_overlaps a b (overlaps_of_hits ha hb)
  case fd => exact fdRow_eq_of_overlaps _ (row_mem_fdRows a) _ (row_mem_fdRows b) (overlaps_of_hits ha hb)

end Sys2Proof
end

section
/-! PROOFS. The vectors the decoder refuses (30_encoding.md R92) and the configurations the block refuses (R91). -/

namespace Sys2Proof.Machine

theorem decodeSd_of_gtAndLt {v : BitVec 5}
    (h : (v.getLsbD 3 = true ∧ v.getLsbD 2 = true) ∨ (v.getLsbD 1 = true ∧ v.getLsbD 0 = true)) :
    decodeSd v = .error .gtAndLt := by
  rw [decodeSd, if_pos (by simpa only [Bool.or_eq_true, Bool.and_eq_true] using h)]

theorem decodeFd_of_endAndOver {v : BitVec 6} (hfire : v.getLsbD 5 = true) (hsync : v.getLsbD 4 = true)
    (hend : v.getLsbD 2 = true) (hover : v.getLsbD 1 = true) : decodeFd v = .error .endAndOver := by
  simp only [decodeFd, hfire, hsync, hend, hover, Bool.and_self, if_true]

/-- Every SD vector the block forms selects an operation. -/
theorem exists_decodeSd_vector (m0 m1 : Option F32) (c : F32) : ∃ o, decodeSd (sdVector m0 m1 c) = .ok o := by
  cases m0 with
  | none => exact ⟨_, decodeSd_nothing _ _ c (.inl rfl)⟩
  | some m0 =>
    cases m1 with
    | none => exact ⟨_, decodeSd_nothing _ _ c (.inr rfl)⟩
    | some m1 => exact ⟨_, decodeSd_vector m0 m1 c⟩

theorem sdVector_not_gtAndLt (m0 m1 : Option F32) (c : F32) :
    ¬ (((sdVector m0 m1 c).getLsbD 3 = true ∧ (sdVector m0 m1 c).getLsbD 2 = true) ∨
      ((sdVector m0 m1 c).getLsbD 1 = true ∧ (sdVector m0 m1 c).getLsbD 0 = true)) := fun h => by
  obtain ⟨o, ho⟩ := exists_decodeSd_vector m0 m1 c
  rw [decodeSd_of_gtAndLt h] at ho
  cases ho

/-- Bits 2 and 1 of an FD vector are `end` and `over` (R86). -/
theorem fdVector_end_over (s : State) (fire b : Bool) :
    (fdVector s fire b).getLsbD 2 = endFlag s ∧ (fdVector s fire b).getLsbD 1 = overFlag s := by
  have key : ∀ f y b e o m : Bool,
      (BitVec.ofNat 6 (32 * bitNat f + 16 * bitNat y + 8 * bitNat b + 4 * bitNat e + 2 * bitNat o
        + bitNat m)).getLsbD 2 = e ∧
      (BitVec.ofNat 6 (32 * bitNat f + 16 * bitNat y + 8 * bitNat b + 4 * bitNat e + 2 * bitNat o
        + bitNat m)).getLsbD 1 = o := by decide
  exact key ..

theorem not_endFlag_and_overFlag (s : State) : ¬ (endFlag s = true ∧ overFlag s = true) := by
  simp only [endFlag, overFlag, decide_eq_true_eq]
  omega

/-- Settles O4: a vector the decoder reads is none it refuses; `end` and `over` compare one cursor with one bound. -/
theorem unreachableVectorsAreRefusedAndNeverFormed : Obligations.UnreachableVectorsAreRefusedAndNeverFormed := by
  refine ⟨fun v => decodeSd_of_gtAndLt, fun v => decodeFd_of_endAndOver,
    fun m0 m1 c => not_or.1 (sdVector_not_gtAndLt m0 m1 c), fun s fire b => ?_⟩
  obtain ⟨hend, hover⟩ := fdVector_end_over s fire b
  rw [hend, hover]
  exact not_endFlag_and_overFlag s

theorem one_le_toNat_iff {n : Nat} (v : BitVec n) : 1 ≤ v.toNat ↔ v ≠ 0#n := by
  rw [Nat.one_le_iff_ne_zero, ne_eq, ne_eq, ← BitVec.toNat_inj, BitVec.toNat_zero]

theorem legalConfig_iff (s : State) : legalConfig s = true ↔
    s.cfg.window ≠ 0#16 ∧ s.cfg.bitRate ≠ 0#20 ∧ s.cfg.bitRate.toNat ≤ 1000000 ∧ s.params.codeBytes ≠ 0 ∧
      1 ≤ s.params.sampleBits ∧ s.params.sampleBits ≤ 24 ∧ s.cfg.releaseCode < 2 ^ (8 * s.params.codeBytes) := by
  simp only [legalConfig, paramsLegal, cfgLegal, Bool.and_eq_true, decide_eq_true_eq, one_le_toNat_iff,
    Nat.one_le_iff_ne_zero (n := s.params.codeBytes)]
  tauto

/-- Settles O53: every operation asks for a legal configuration first. -/
theorem refusedConfigurationAdmitsNoOperation : Obligations.RefusedConfigurationAdmitsNoOperation :=
  ⟨fun i s h => exec_of_refused i s h, legalConfig_iff⟩

end Sys2Proof.Machine
end

section
/-! PROOFS. The tone estimator's operations (40_tone_estimator.md): what they write and what selects them (R101, R102), the window of
one sample (R102), and the cycles that leave a path alone (R100, 42_bit_sampler.md R145, 45_cycle.md R204). -/

namespace Sys2Proof.Machine

/-! What selects the TE operations (30_encoding.md R82). -/

theorem decodeTe_eq_teChoice (s : State) (k : Tone) : decodeTe (teVector s k) = .ok (teChoice s k) := decodeTe_vector s k

theorem decodeTe_eq_step_iff (s : State) (k : Tone) :
    decodeTe (teVector s k) = .ok .step ↔ (s.tone k).cnt.toNat + 1 ≠ s.cfg.window.toNat := by
  rw [decodeTe_eq_teChoice, Except.ok.injEq, teChoice_eq_step_iff]

theorem decodeTe_eq_complete_iff (s : State) (k : Tone) :
    decodeTe (teVector s k) = .ok .complete ↔ (s.tone k).cnt.toNat + 1 = s.cfg.window.toNat := by
  rw [decodeTe_eq_teChoice, Except.ok.injEq, teChoice_eq_complete_iff]

/-! The written tone and the draws, as updates of the state. -/

theorem usedDraws_setTone_t0 (n : Nat) (s : State) (t : ToneState) :
    usedDraws n (s.setTone .t0 t) = { s with tone0 := t, draw := s.draw + n } := rfl

theorem usedDraws_setTone_t1 (n : Nat) (s : State) (t : ToneState) :
    usedDraws n (s.setTone .t1 t) = { s with tone1 := t, draw := s.draw + n } := rfl

/-- Settles O11: the effect of TE_STEP with its advance written out, for either tone. -/
theorem teStepAdvancesTheFilter : Obligations.TeStepAdvancesTheFilter := by
  intro s x hlegal
  refine ⟨⟨_, increment_toNat Config.cntPastWidth _, ?_⟩, ⟨_, increment_toNat Config.cntPastWidth _, ?_⟩,
    decodeTe_eq_step_iff s .t0, decodeTe_eq_step_iff s .t1⟩
  · rw [exec_teStep .t0 x s hlegal, advanceOf_eq, usedDraws_setTone_t0, coef_t0, tone_t0]
  · rw [exec_teStep .t1 x s hlegal, advanceOf_eq, usedDraws_setTone_t1, coef_t1, tone_t1]

/-- Settles O12: the effect of TE_COMPLETE with its advance and its magnitude written out, for either tone. -/
theorem teCompleteFinalisesTheWindow : Obligations.TeCompleteFinalisesTheWindow := by
  intro s x hlegal
  refine ⟨?_, ?_, decodeTe_eq_complete_iff s .t0, decodeTe_eq_complete_iff s .t1⟩
  · rw [exec_teComplete .t0 x s hlegal, magnitudeOf_eq, advanceOf_eq, usedDraws_setTone_t0, coef_t0, tone_t0, f32Zero]
  · rw [exec_teComplete .t1 x s hlegal, magnitudeOf_eq, advanceOf_eq, usedDraws_setTone_t1, coef_t1, tone_t1, f32Zero]

/-! The window of one sample: with q1 = q2 = +0.0 the advance is the sample, and the magnitude its square less a product with +0.0. -/

theorem classify_f32Zero : classify f32Zero = .finite false 0 := by decide

theorem classify_u2f (x : Sample) : classify (u2f x) = .finite false (x.toNat * 2 ^ 149) := sampleConversionIsExact x

/-- The square of a sample stays below 2^48, far from overflow. -/
theorem exists_classify_sampleSquare (n : Nat) (x : Sample) : ∃ l, classify (f32Mul n (u2f x) (u2f x)) = .finite false l := by
  refine f32Mul_self n _ false _ (classify_u2f x) ?_
  have hx : x.toNat * 2 ^ 149 < 2 ^ 24 * 2 ^ 149 := Nat.mul_lt_mul_of_pos_right x.isLt (Nat.two_pow_pos 149)
  calc x.toNat * 2 ^ 149 * (x.toNat * 2 ^ 149) < 2 ^ 24 * 2 ^ 149 * (2 ^ 24 * 2 ^ 149) := Nat.mul_self_lt_mul_self hx
    _ < (2 ^ 25 - 1) * 2 ^ 252 * 2 ^ 149 := by norm_num

section WindowStart

variable {s : State} {k : Tone} {u : Bool} {r : Nat} (x : Sample) (hq1 : (s.tone k).q1 = f32Zero)
  (hq2 : (s.tone k).q2 = f32Zero) (hcoef : classify (s.coef k) = .finite u r)
include hq1 hq2 hcoef

theorem advanceOf_windowStart : advanceOf k x s = u2f x := by
  rw [advanceOf_eq, hq1, hq2,
    f32Add_zero _ _ _ _ _ (classify_u2f x) (f32Mul_zero _ _ _ _ _ _ hcoef classify_f32Zero),
    f32Sub_zero _ _ _ _ _ (classify_u2f x) classify_f32Zero]

theorem magnitudeOf_windowStart : magnitudeOf k x s =
    f32Sub (s.draw + 8) (f32Mul 0 (u2f x) (u2f x)) (f32Mul (s.draw + 7) (f32Mul 0 (s.coef k) (u2f x)) f32Zero) := by
  obtain ⟨l, hsquare⟩ := exists_classify_sampleSquare (s.draw + 3) x
  rw [magnitudeOf_eq, advanceOf_windowStart x hq1 hq2 hcoef, hq1,
    f32Add_zero _ _ _ _ _ hsquare (f32Mul_zero _ _ _ _ _ _ classify_f32Zero classify_f32Zero),
    f32Mul_draw _ 0 _ _ _ _ _ _ (classify_u2f x) (classify_u2f x), f32Mul_draw _ 0 _ _ _ _ _ _ hcoef (classify_u2f x)]

/-- A finite product with the sample leaves the square: it is multiplied to a zero and subtracted. -/
theorem magnitudeOf_windowStart_of_finite {v : Bool} {p : Nat}
    (hprod : classify (f32Mul 0 (s.coef k) (u2f x)) = .finite v p) : magnitudeOf k x s = f32Mul 0 (u2f x) (u2f x) := by
  obtain ⟨l, hsquare⟩ := exists_classify_sampleSquare 0 x
  rw [magnitudeOf_windowStart x hq1 hq2 hcoef,
    f32Sub_zero _ _ _ _ _ hsquare (f32Mul_zero _ _ _ _ _ _ hprod classify_f32Zero)]

/-- An overflowing product with the sample gives a NaN: an infinity is multiplied by +0.0. -/
theorem classify_magnitudeOf_windowStart_of_overflow {v : Bool}
    (hprod : classify (f32Mul 0 (s.coef k) (u2f x)) = .inf v) : classify (magnitudeOf k x s) = .nan := by
  have hnan : classify (f32Neg (drawnNaN (s.draw + 7))) = .nan := by rw [classify_f32Neg_eq, classify_drawnNaN]
  rw [magnitudeOf_windowStart x hq1 hq2 hcoef, f32Mul_inf_finite hprod classify_f32Zero, if_pos rfl, f32Sub_eq,
    f32Add_nan_right hnan, classify_drawnNaN]

end WindowStart

/-- What TE_COMPLETE writes to `mag_k`. -/
theorem effect_teComplete_mag (k : Tone) (x : Sample) (s : State) :
    ((effect (.teComplete k x) s).tone k).mag = magnitudeOf k x s := congrArg ToneState.mag (teComplete_tone s k x)

/-- Settles O15: a product with +0.0 is a zero, which changes neither the advance nor the square. -/
theorem windowOfOneSquaresTheSample : Obligations.WindowOfOneSquaresTheSample := by
  intro s k x hlegal hq1 hq2 ⟨u, r, hcoef⟩ ⟨v, p, hprod⟩
  refine ⟨_, exec_of_legal (.teComplete k x) s hlegal, ?_⟩
  rw [effect_teComplete_mag, magnitudeOf_windowStart_of_finite x hq1 hq2 hcoef hprod]

/-- A block after reset with W = 1 and the largest finite value as COEF0. -/
def largestCoefficient : State :=
  { State.reset with cfg := { Cfg.initial with window := 1#16, coef0 := 0x7F7FFFFF#32 } }

/-- Refutes O16: the largest finite coefficient times the sample 4 overflows, and the magnitude is a NaN. -/
theorem not_windowOfOneSquaresForEveryFiniteCoefficient :
    ¬ Obligations.WindowOfOneSquaresForEveryFiniteCoefficient := by
  intro h
  have hlegal : legalConfig largestCoefficient = true := by decide
  have hcoef : classify (largestCoefficient.coef .t0) = .finite false ((2 ^ 24 - 1) * 2 ^ 253) := by decide
  have hprod : classify (f32Mul 0 (largestCoefficient.coef .t0) (u2f 4#24)) = .inf false := by
    rw [f32Mul_finite_finite hcoef (classify_u2f 4#24), classify_overflowed _ _ _ (by norm_num), classify_f32Inf]; rfl
  obtain ⟨t, hexec, hmag⟩ := h largestCoefficient .t0 4#24 hlegal rfl rfl ⟨_, _, hcoef⟩
  obtain ⟨l, hsquare⟩ := exists_classify_sampleSquare 0 4#24
  have hnan := classify_magnitudeOf_windowStart_of_overflow 4#24 rfl rfl hcoef hprod
  rw [← effect_teComplete_mag, ← exec_next hexec, hmag, hsquare] at hnan
  cases hnan

/-! The cycles that leave a path alone. -/

/-- The sample path's registers are the same, and `win_code` is clear. -/
def SamplePathIdle (s t : State) : Prop :=
  t.tone0 = s.tone0 ∧ t.tone1 = s.tone1 ∧ t.symLevel = s.symLevel ∧ t.symValid = s.symValid ∧ t.winCode = 0b00#2

/-- The bit path's registers are the same, and its strobes are clear. -/
def BitPathIdle (s t : State) : Prop :=
  t.divCnt = s.divCnt ∧ t.syncFlag = s.syncFlag ∧ t.bitCount = s.bitCount ∧ t.buf = s.buf ∧
    t.bitValid = false ∧ t.bitOut = false ∧ t.outcome = 0b00#2 ∧ t.activate = false

theorem cyclePart_samplePathIdle (u : Bool) (s : State) : SamplePathIdle s (cyclePart none u s) := by
  simp [SamplePathIdle, cyclePart]

/-- Without a tick no bit fires. -/
theorem bitPart_clearStrobes_of_no_tick (s : State) : bitPart false (clearStrobes s) = quiet s := if_neg (by simp)

theorem cyclePart_bitPathIdle (sample : Option Sample) (s : State) : BitPathIdle s (cyclePart sample false s) := by
  cases sample <;> simp [BitPathIdle, cyclePart, bitPart_clearStrobes_of_no_tick]

/-- Settles O42: NOP and TICK are cycles without a sample, NOP and SAMPLE cycles without a tick. -/
theorem cycleWithoutAnEventLeavesItsPath : Obligations.CycleWithoutAnEventLeavesItsPath := by
  intro s t x
  refine ⟨?noSample, ?noTick⟩
  case noSample =>
    rintro (hnop | htick)
    · rw [exec_next hnop]; exact cyclePart_samplePathIdle false s
    · rw [exec_next htick]; exact cyclePart_samplePathIdle true s
  case noTick =>
    rintro (hnop | hsample)
    · rw [exec_next hnop]; exact cyclePart_bitPathIdle none s
    · rw [exec_next hsample]; exact cyclePart_bitPathIdle (some x) s

end Sys2Proof.Machine
end

section
/-! PROOFS. The symbol detector (41_symbol_detector.md): what selects each SD operation (R121 to R125), the sample that
completes a window, and the window of one sample. -/

namespace Sys2Proof.Machine

/-! What selects the SD operations of two magnitudes (30_encoding.md R83). -/

section Selection

variable {m0 m1 c : F32}

/-- A NaN compares with nothing, and nothing is above or below itself. -/
theorem not_above_nor_below {m : F32} (h : isNaN m = true ∨ isNaN c = true ∨ m = c) :
    f32Gt m c = false ∧ f32Lt m c = false := by
  obtain ⟨hnan, -⟩ := comparisonsAreOrdered
  rcases h with hm | hc | rfl
  · exact hnan m c (.inl hm)
  · exact hnan m c (.inr hc)
  · have hself : f32Gt m m = false := by simpa using f32Gt_asymm m m
    exact ⟨hself, hself⟩

theorem decodeSd_eq_ok_iff (o : SdOp) : decodeSd (sdVector (some m0) (some m1) c) = .ok o ↔ sdChoice m0 m1 c = o := by
  rw [decodeSd_vector, Except.ok.injEq, sdChoice]

theorem sdChoice_ne_none : sdChoice m0 m1 c ≠ .none := by
  unfold sdChoice; split_ifs <;> decide

theorem sdChoice_eq_set0_iff : sdChoice m0 m1 c = .set0 ↔ f32Gt m0 c = true ∧ f32Lt m1 c = true := by
  unfold sdChoice; split_ifs <;> simp_all

/-- The test for SD_SET0, which comes first, excludes m0 < T. -/
theorem sdChoice_eq_set1_iff : sdChoice m0 m1 c = .set1 ↔ f32Lt m0 c = true ∧ f32Gt m1 c = true := by
  have hexcl := not_f32Gt_and_f32Lt m0 c
  unfold sdChoice; split_ifs <;> simp_all

theorem sdChoice_eq_hold_iff : sdChoice m0 m1 c = .hold ↔
    ¬ (f32Gt m0 c = true ∧ f32Lt m1 c = true) ∧ ¬ (f32Lt m0 c = true ∧ f32Gt m1 c = true) := by
  unfold sdChoice; split_ifs <;> simp_all

theorem sdChoice_eq_hold_of_undecided (h : isNaN m0 = true ∨ isNaN m1 = true ∨ isNaN c = true ∨ m0 = c ∨ m1 = c) :
    sdChoice m0 m1 c = .hold := by
  have hm : (isNaN m0 = true ∨ isNaN c = true ∨ m0 = c) ∨ (isNaN m1 = true ∨ isNaN c = true ∨ m1 = c) := by tauto
  rw [sdChoice_eq_hold_iff]
  rcases hm with hm | hm <;> simp [not_above_nor_below hm]

/-- A NaN decides nothing, and one magnitude for both tones is not on both sides of T. -/
theorem sdChoice_eq_hold_of_nan_or_eq {m : F32} (h0 : isNaN m0 = true ∨ m0 = m) (h1 : isNaN m1 = true ∨ m1 = m) :
    sdChoice m0 m1 c = .hold := by
  rcases h0 with h0 | rfl
  · exact sdChoice_eq_hold_of_undecided (.inl h0)
  rcases h1 with h1 | rfl
  · exact sdChoice_eq_hold_of_undecided (.inr (.inl h1))
  exact sdChoice_eq_hold_iff.2 ⟨not_f32Gt_and_f32Lt m1 c, fun ⟨hlt, hgt⟩ => not_f32Gt_and_f32Lt m1 c ⟨hgt, hlt⟩⟩

theorem decodeSd_eq_hold_of_undecided (h : isNaN m0 = true ∨ isNaN m1 = true ∨ isNaN c = true ∨ m0 = c ∨ m1 = c) :
    decodeSd (sdVector (some m0) (some m1) c) = .ok .hold :=
  (decodeSd_eq_ok_iff .hold).2 (sdChoice_eq_hold_of_undecided h)

/-- Such magnitudes select nothing but SD_HOLD. -/
theorem decodeSd_ne_of_undecided {o : SdOp} (ho : o ≠ .hold) (h : isNaN m0 = true ∨ isNaN m1 = true ∨ m0 = c ∨ m1 = c) :
    decodeSd (sdVector (some m0) (some m1) c) ≠ .ok o := by
  rw [decodeSd_eq_hold_of_undecided (by tauto), ne_eq, Except.ok.injEq]
  exact ho.symm

end Selection

/-- Settles O17: two magnitudes select one of the other three operations. -/
theorem sdNoneReportsNoWindow : Obligations.SdNoneReportsNoWindow := by
  refine ⟨fun s => exec_of_legal .sdNone s, fun m0 m1 c => ⟨fun h => ?_, decodeSd_nothing m0 m1 c⟩⟩
  cases m0 with
  | none => exact .inl rfl
  | some m0 =>
    cases m1 with
    | none => exact .inr rfl
    | some m1 => exact absurd ((decodeSd_eq_ok_iff .none).1 h) sdChoice_ne_none

/-- Settles O18: the selection of SD_SET0. -/
theorem sdSet0DecidesLevelZero : Obligations.SdSet0DecidesLevelZero :=
  ⟨fun s => exec_of_legal .sdSet0 s, fun _ _ _ =>
    ⟨(decodeSd_eq_ok_iff .set0).trans sdChoice_eq_set0_iff, decodeSd_ne_of_undecided (by decide)⟩⟩

/-- Settles O19: the selection of SD_SET1. -/
theorem sdSet1DecidesLevelOne : Obligations.SdSet1DecidesLevelOne :=
  ⟨fun s => exec_of_legal .sdSet1 s, fun _ _ _ =>
    ⟨(decodeSd_eq_ok_iff .set1).trans sdChoice_eq_set1_iff, decodeSd_ne_of_undecided (by decide)⟩⟩

/-- Settles O20: SD_HOLD is what is left of the two decisions. -/
theorem sdHoldKeepsTheLevel : Obligations.SdHoldKeepsTheLevel :=
  ⟨fun s => exec_of_legal .sdHold s, fun _ _ _ =>
    ⟨(decodeSd_eq_ok_iff .hold).trans sdChoice_eq_hold_iff, decodeSd_eq_hold_of_undecided⟩⟩

/-! A SAMPLE cycle: no bit fires, and the strobe clear changes nothing the sample path reads. -/

theorem effect_sample (x : Sample) (s : State) :
    effect (.sample x) s = performSd (sdSelected x s) (afterUpdates x (quiet s)) := by
  change samplePart x (bitPart false (clearStrobes s)) = _
  rw [bitPart_clearStrobes_of_no_tick, samplePart, sdSelected_congr x (s := quiet s) (t := s) rfl rfl rfl rfl]

theorem effect_sample_tone (k : Tone) (x : Sample) (s : State) :
    (effect (.sample x) s).tone k = (afterUpdates x s).tone k := by
  obtain ⟨h0, h1, -⟩ := afterUpdates_congr x (s := quiet s) (t := s) rfl rfl rfl rfl
  rw [effect_sample, performSd_tone]
  cases k
  · exact h0
  · exact h1

/-- The row format TE selects for a tone, with its operands. -/
theorem teChoice_toInstr (k : Tone) (x : Sample) (s : State) : (teChoice s k).toInstr k x =
    if (s.tone k).cnt.toNat + 1 = s.cfg.window.toNat then .teComplete k x else .teStep k x :=
  apply_ite (TeOp.toInstr k x) _ _ _

/-- Settles O13: the cycle's two updates, one after the other, are the two operations. -/
theorem sampleUpdatesBothTones : Obligations.SampleUpdatesBothTones := by
  intro s x hlegal
  simp only [← teChoice_toInstr]
  refine ⟨performTe (teChoice s .t0) .t0 x s, afterUpdates x s, _, exec_te _ .t0 x s hlegal,
    exec_te _ .t1 x _ ((legalConfig_performTe _ .t0 x s).trans hlegal), exec_of_legal (.sample x) s hlegal,
    effect_sample_tone .t0 x s, effect_sample_tone .t1 x s, ?_, ?_⟩
  · exact performTe_other _ .t1 x _ .t0 (by decide)
  · exact performTe_other s .t0 x _ .t1 (by decide)

/-! The sample that completes both windows. -/

section Completion

variable {x : Sample} {s : State} (h0 : s.tone0.cnt.toNat + 1 = s.cfg.window.toNat)
  (h1 : s.tone1.cnt.toNat + 1 = s.cfg.window.toNat)
include h0 h1

theorem afterUpdates_of_complete : afterUpdates x s = teComplete .t1 x (teComplete .t0 x s) := by
  rw [afterUpdates, (teChoice_eq_complete_iff .t0 s).2 h0, (teChoice_eq_complete_iff .t1 s).2 h1]; rfl

/-- The magnitudes the cycle writes. -/
theorem effect_sample_mag_of_complete : (effect (.sample x) s).tone0.mag = magnitudeOf .t0 x s ∧
    (effect (.sample x) s).tone1.mag = magnitudeOf .t1 x (teComplete .t0 x s) := by
  rw [← tone_t0, ← tone_t1, effect_sample_tone, effect_sample_tone, afterUpdates_of_complete h0 h1]
  have hother : (teComplete .t1 x (teComplete .t0 x s)).tone .t0 = (teComplete .t0 x s).tone .t0 :=
    performTe_other _ .t1 x .complete .t0 (by decide)
  rw [hother, teComplete_tone, teComplete_tone]
  exact ⟨rfl, rfl⟩

/-- The decision of R121 is one of those magnitudes. -/
theorem sdSelected_of_complete : sdSelected x s =
    sdChoice (effect (.sample x) s).tone0.mag (effect (.sample x) s).tone1.mag s.cfg.threshold := by
  obtain ⟨hm0, hm1⟩ := effect_sample_mag_of_complete (x := x) h0 h1
  rw [hm0, hm1]
  exact if_pos ⟨(teChoice_eq_complete_iff .t0 s).2 h0, (teChoice_eq_complete_iff .t1 s).2 h1⟩

end Completion

/-- What the decision of two magnitudes writes (R123 to R125). -/
theorem performSd_sdChoice (m0 m1 c : F32) (s : State) :
    let set0 := f32Gt m0 c && f32Lt m1 c
    let set1 := f32Lt m0 c && f32Gt m1 c
    (performSd (sdChoice m0 m1 c) s).symLevel = (if set0 then false else if set1 then true else s.symLevel) ∧
    (performSd (sdChoice m0 m1 c) s).symValid = (if set0 || set1 then true else s.symValid) ∧
    (performSd (sdChoice m0 m1 c) s).winCode = (if set0 then 0b01#2 else if set1 then 0b10#2 else 0b11#2) := by
  unfold sdChoice
  cases f32Gt m0 c && f32Lt m1 c with
  | true => exact ⟨rfl, rfl, rfl⟩
  | false => cases f32Lt m0 c && f32Gt m1 c <;> exact ⟨rfl, rfl, rfl⟩

/-- Settles O21: the cycle performs the decision of the two magnitudes it writes. -/
theorem completedWindowDecidesTheLevel : Obligations.CompletedWindowDecidesTheLevel := by
  intro s x hlegal h0 h1
  refine ⟨_, exec_of_legal (.sample x) s hlegal, ?_⟩
  have heffect := effect_sample x s
  rw [sdSelected_of_complete h0 h1] at heffect
  have hdecision := performSd_sdChoice (effect (.sample x) s).tone0.mag (effect (.sample x) s).tone1.mag s.cfg.threshold
    (afterUpdates x (quiet s))
  rwa [← heffect, afterUpdates_symLevel, afterUpdates_symValid] at hdecision

/-! The window of one sample, for every coefficient. -/

/-- A finite product is a finite value or overflows. -/
theorem f32Mul_finite_cases {a b : F32} {s t : Bool} {m l : Nat} (n : Nat) (ha : classify a = .finite s m)
    (hb : classify b = .finite t l) :
    (∃ r, classify (f32Mul n a b) = .finite (s != t) r) ∨ classify (f32Mul n a b) = .inf (s != t) := by
  rw [f32Mul_finite_finite ha hb]
  rcases Nat.lt_or_ge (m * l) ((2 ^ 25 - 1) * 2 ^ 252 * 2 ^ 149) with h | h
  · obtain ⟨r, hr, -, -⟩ := classify_rounded (s != t) (m * l) 149 h
    exact .inl ⟨r, hr⟩
  · exact .inr (by rw [classify_overflowed _ _ _ h, classify_f32Inf])

/-- The advance and the magnitude hand on a NaN product c·q1. -/
theorem isNaN_magnitudeOf_of_isNaN_product {s : State} {k : Tone} (x : Sample)
    (h : isNaN (f32Mul s.draw (s.coef k) (s.tone k).q1) = true) : isNaN (magnitudeOf k x s) = true := by
  rw [isNaN_iff] at h
  have hadvance : classify (advanceOf k x s) = .nan := by
    rw [advanceOf_eq, f32Add_nan_right h, f32Sub_eq, f32Add_nan_left (classify_drawnNaN _), classify_drawnNaN]
  rw [isNaN_iff, magnitudeOf_eq, f32Mul_nan_left hadvance, f32Add_nan_left (classify_drawnNaN _), f32Sub_eq,
    f32Add_nan_left (classify_drawnNaN _), classify_drawnNaN]

/-- With q1 = q2 = +0.0 the magnitude is a NaN or the square of the sample: a NaN or infinite coefficient already multiplies q1 to a
NaN, and the product of a finite one with the sample is finite or overflows. -/
theorem magnitudeOf_windowStart_cases {s : State} {k : Tone} (x : Sample) (hq1 : (s.tone k).q1 = f32Zero)
    (hq2 : (s.tone k).q2 = f32Zero) :
    isNaN (magnitudeOf k x s) = true ∨ magnitudeOf k x s = f32Mul 0 (u2f x) (u2f x) := by
  cases hcoef : classify (s.coef k) with
  | nan =>
    refine .inl (isNaN_magnitudeOf_of_isNaN_product x ?_)
    rw [f32Mul_nan_left hcoef, isNaN_drawnNaN]
  | inf u =>
    refine .inl (isNaN_magnitudeOf_of_isNaN_product x ?_)
    rw [hq1, f32Mul_inf_finite hcoef classify_f32Zero, if_pos rfl, isNaN_drawnNaN]
  | finite u r =>
    rcases f32Mul_finite_cases 0 hcoef (classify_u2f x) with ⟨p, hprod⟩ | hprod
    · exact .inr (magnitudeOf_windowStart_of_finite x hq1 hq2 hcoef hprod)
    · exact .inl ((isNaN_iff _).2 (classify_magnitudeOf_windowStart_of_overflow x hq1 hq2 hcoef hprod))

/-- Settles O22: each magnitude is a NaN, which decides nothing, or the square of the sample, the same for both tones. -/
theorem windowOfOneAlwaysHolds : Obligations.WindowOfOneAlwaysHolds := by
  intro s x hlegal hW hc0 hc1 hq10 hq20 hq11 hq21
  have h0 : s.tone0.cnt.toNat + 1 = s.cfg.window.toNat := by rw [hW, hc0]; rfl
  have h1 : s.tone1.cnt.toNat + 1 = s.cfg.window.toNat := by rw [hW, hc1]; rfl
  have hother : (teComplete .t0 x s).tone .t1 = s.tone1 := performTe_other s .t0 x .complete .t1 (by decide)
  have hhold : sdSelected x s = .hold := by
    obtain ⟨hm0, hm1⟩ := effect_sample_mag_of_complete (x := x) h0 h1
    rw [sdSelected_of_complete h0 h1, hm0, hm1]
    exact sdChoice_eq_hold_of_nan_or_eq (magnitudeOf_windowStart_cases (k := .t0) x hq10 hq20)
      (magnitudeOf_windowStart_cases (k := .t1) x (hother ▸ hq11) (hother ▸ hq21))
  refine ⟨_, exec_of_legal (.sample x) s hlegal, ?_⟩
  rw [effect_sample, hhold]
  exact ⟨rfl, afterUpdates_symLevel x (quiet s), afterUpdates_symValid x (quiet s)⟩

end Sys2Proof.Machine
end

section
/-! PROOFS. The bit-rate divider and the BitSampler (42_bit_sampler.md): the bit period (R140), what the divider operations write and
what selects them (R141 to R143), the sampled level (R144), and one bit period of ticks (R143, R242). -/

namespace Sys2Proof.Machine

/-- Settles O24: a truncated quotient, of a divisor from 1 to the dividend. -/
theorem bitPeriodIsTheTruncatedQuotient : Obligations.BitPeriodIsTheTruncatedQuotient := by
  refine ⟨fun p c hlegal => ?_, fun c => ⟨fun h => ?_, fun h => ?_⟩⟩
  · simp only [cfgLegal, decide_eq_true_eq] at hlegal
    obtain ⟨-, hpos, hle, -⟩ := hlegal
    refine ⟨Nat.div_pos hle hpos, Nat.div_le_self _ _, bitPeriod_lt c, Nat.div_mul_le_self _ _, ?_⟩
    rw [Nat.mul_comm]
    exact Nat.lt_mul_div_succ _ hpos
  · rw [bitPeriod, h]; rfl
  · rw [bitPeriod, h]; rfl

/-! What selects the DV operations (30_encoding.md R84). -/

/-- The DV operation of a cycle (R84). -/
def dvChoice (s : State) (u : Bool) : DvOp :=
  if u then (if s.divCnt.toNat + 1 = bitPeriod s.cfg then .wrap else .count) else .idle

section Selection

variable {s : State} {u : Bool}

theorem decodeDv_eq_ok_iff (o : DvOp) : decodeDv (dvVector s u) = .ok o ↔ dvChoice s u = o := by
  rw [decodeDv_vector, Except.ok.injEq, dvChoice]

theorem dvChoice_eq_idle_iff : dvChoice s u = .idle ↔ u = false := by
  unfold dvChoice; split_ifs <;> simp_all

theorem dvChoice_eq_count_iff : dvChoice s u = .count ↔ u = true ∧ s.divCnt.toNat + 1 ≠ bitPeriod s.cfg := by
  unfold dvChoice; split_ifs <;> simp_all

theorem dvChoice_eq_wrap_iff : dvChoice s u = .wrap ↔ u = true ∧ s.divCnt.toNat + 1 = bitPeriod s.cfg := by
  unfold dvChoice; split_ifs <;> simp_all

end Selection

/-- Settles O23: the effects of the divider operations, and the choice of format DV. -/
theorem dividerCountsTicksAndWraps : Obligations.DividerCountsTicksAndWraps := fun s hlegal =>
  ⟨exec_of_legal .dvIdle s hlegal,
    ⟨_, increment_toNat Config.divCntPastWidth s.divCnt, exec_of_legal .dvCount s hlegal⟩,
    exec_of_legal .dvWrap s hlegal, fun _ =>
      ⟨(decodeDv_eq_ok_iff .idle).trans dvChoice_eq_idle_iff, (decodeDv_eq_ok_iff .count).trans dvChoice_eq_count_iff,
        (decodeDv_eq_ok_iff .wrap).trans dvChoice_eq_wrap_iff⟩⟩

/-- Settles O25: the effects of the two sampler operations. -/
theorem bitSamplerReadsTheLevel : Obligations.BitSamplerReadsTheLevel := fun s hlegal =>
  ⟨exec_of_legal .bitSample s hlegal, exec_of_legal .bitNone s hlegal⟩

/-! One bit period of ticks. -/

/-- A TICK cycle under the configuration `c`. -/
def tickCycle (c : Cfg) : Stimulus := .cycle ⟨false, false, 0#24, true, c⟩

/-- A driven tick runs the bit path on cleared strobes. -/
theorem step_tickCycle {s : State} {rest : List Stimulus} (hlegal : legalConfig s = true)
    (hin : s.inputs = tickCycle s.cfg :: rest) :
    step s = .next (bitPart true (clearStrobes { s with inputs := rest, cfgOpen := false })) := by
  rw [step_cycle s _ rest hin (by simp [cfgHeld]) rfl]
  exact exec_of_legal .tick { s with inputs := rest, cfgOpen := false } hlegal

/-- A tick that does not end the bit period counts, and no bit is reported (42_bit_sampler.md R142). -/
theorem bitPart_counted {s : State} (h : s.divCnt.toNat + 1 ≠ bitPeriod s.cfg) :
    bitPart true s = fdNobit (bitNone (dvCount s)) := if_neg fun hfire => h hfire.2

/-- One more step at the end of a run. -/
theorem runFor_succ_of_run {n : Nat} {s t : State} (h : runFor n s = .next t) : runFor (n + 1) s = step t := by
  rw [runFor_add n 1 s t h, runFor_succ]
  cases ht : step t with
  | next u => exact runFor_zero u
  | fault e => rfl
  | refused e => rfl

/-- `t` is a state after `n` ticks of a bit period that began in `s`: `n` are counted, those left to its end are driven, and the
latest reported no bit. -/
structure TicksCounted (s : State) (n : Nat) (t : State) : Prop where
  params : t.params = s.params
  cfg : t.cfg = s.cfg
  symLevel : t.symLevel = s.symLevel
  divCnt : t.divCnt.toNat = n
  inputs : t.inputs = List.replicate (bitPeriod s.cfg - n) (tickCycle s.cfg)
  noBit : 1 ≤ n → t.bitValid = false ∧ t.outcome = 0b00#2

/-- The state in which the bit period begins, its P ticks driven. -/
def ticking (s : State) : State := { s with inputs := List.replicate (bitPeriod s.cfg) (tickCycle s.cfg) }

theorem ticksCounted_zero {s : State} (hdiv : s.divCnt = 0) : TicksCounted s 0 (ticking s) where
  params := rfl
  cfg := rfl
  symLevel := rfl
  divCnt := congrArg BitVec.toNat hdiv
  inputs := rfl
  noBit := fun h => absurd h (by decide)

section BitPeriod

variable {s t : State} {n : Nat} (hlegal : legalConfig s = true) (h : TicksCounted s n t)

include hlegal h

/-- Within the bit period the next step is a tick. -/
theorem TicksCounted.step_eq (hn : n < bitPeriod s.cfg) :
    step t = .next (bitPart true (clearStrobes
      { t with inputs := List.replicate (bitPeriod s.cfg - (n + 1)) (tickCycle s.cfg), cfgOpen := false })) := by
  refine step_tickCycle ((legalConfig_congr h.params h.cfg).trans hlegal) ?_
  rw [h.inputs, h.cfg, ← List.replicate_succ]
  congr 1
  omega

/-- A tick before the P-th only counts (R142). -/
theorem TicksCounted.count (hn : n + 1 < bitPeriod s.cfg) : ∃ u, step t = .next u ∧ TicksCounted s (n + 1) u := by
  have hP := bitPeriod_lt s.cfg
  have hstep := h.step_eq hlegal (by omega)
  rw [bitPart_counted (by rw [clearStrobes_divCnt, clearStrobes_cfg, h.divCnt, h.cfg]; omega)] at hstep
  refine ⟨_, hstep, h.params, h.cfg, h.symLevel, ?_, rfl, fun _ => ⟨rfl, rfl⟩⟩
  have hdiv := increment_toNat Config.divCntPastWidth t.divCnt (by rw [h.divCnt]; omega)
  rwa [h.divCnt] at hdiv

/-- The P-th tick wraps the divider and fires a bit with the level (R143, R144). -/
theorem TicksCounted.fire (hn : n + 1 = bitPeriod s.cfg) :
    ∃ u, step t = .next u ∧ u.divCnt = 0 ∧ u.bitValid = true ∧ u.bitOut = s.symLevel := by
  have hstep := h.step_eq hlegal (by omega)
  rw [bitPart_fired (by rw [clearStrobes_divCnt, clearStrobes_cfg, h.divCnt, h.cfg, hn])] at hstep
  refine ⟨_, hstep, ?_, ?_, ?_⟩
  · rw [performFd_divCnt]; rfl
  · rw [performFd_bitValid]; rfl
  · rw [performFd_bitOut]; exact h.symLevel

end BitPeriod

/-- All ticks before the P-th count, by induction on their number. -/
theorem exists_runFor_ticking {s : State} (hlegal : legalConfig s = true) (hdiv : s.divCnt = 0) (n : Nat)
    (hn : n < bitPeriod s.cfg) : ∃ t, runFor n (ticking s) = .next t ∧ TicksCounted s n t := by
  induction n with
  | zero => exact ⟨_, runFor_zero _, ticksCounted_zero hdiv⟩
  | succ n ih =>
    obtain ⟨t, hrun, ht⟩ := ih (by omega)
    rw [runFor_succ_of_run hrun]
    exact ht.count hlegal hn

/-- Settles O27: P - 1 counting ticks, then the one that fires. -/
theorem bitFiresOnEveryPthTick : Obligations.BitFiresOnEveryPthTick := by
  intro s hlegal hdiv
  constructor
  · intro n hpos hn
    obtain ⟨t, hrun, ht⟩ := exists_runFor_ticking hlegal hdiv n hn
    exact ⟨t, hrun, ht.divCnt, ht.noBit hpos⟩
  · obtain ⟨n, hn⟩ : ∃ n, n + 1 = bitPeriod s.cfg := ⟨_, Nat.sub_add_cancel (bitPeriod_pos_of_legal hlegal)⟩
    obtain ⟨t, hrun, ht⟩ := exists_runFor_ticking hlegal hdiv n (by omega)
    obtain ⟨u, hstep, hu⟩ := ht.fire hlegal hn
    have hfire : runFor (bitPeriod s.cfg) (ticking s) = .next u := by rw [← hn, runFor_succ_of_run hrun, hstep]
    exact ⟨u, hfire, hu⟩

end Sys2Proof.Machine
end

section
/-! PROOFS. The FrameDecoder's operations (43_frame_decoder.md R163 to R170): what selects each of them, what each writes, and the
step at the decoder's own interface. -/

namespace Sys2Proof.Machine

/-- The row of R163's table for each FD operation; one that takes the bit takes the bit that fires. -/
def FdSelects (s : State) (fire b : Bool) : FdOp → Prop
  | .nobit => fire = false
  | .ignore => fire = true ∧ s.syncFlag = false ∧ b = false
  | .sync => fire = true ∧ s.syncFlag = false ∧ b = true
  | .store c => c = b ∧ fire = true ∧ s.syncFlag = true ∧ s.bitCount < 8 * s.params.codeBytes
  | .accept c =>
    c = b ∧ fire = true ∧ s.syncFlag = true ∧ s.bitCount = 8 * s.params.codeBytes ∧ nextBuf s b = rcBytes s
  | .reject c =>
    c = b ∧ fire = true ∧ s.syncFlag = true ∧ s.bitCount = 8 * s.params.codeBytes ∧ nextBuf s b ≠ rcBytes s
  | .overflow c => c = b ∧ fire = true ∧ s.syncFlag = true ∧ 8 * s.params.codeBytes < s.bitCount

section Selection

variable {s : State} {fire b : Bool}

theorem fdSelects_fdChoice (s : State) (fire b : Bool) : FdSelects s fire b (fdChoice s fire b) := by
  rcases fdChoice_cases s fire b with
    ⟨he, h⟩ | ⟨he, h⟩ | ⟨he, h⟩ | ⟨he, h⟩ | ⟨he, h⟩ | ⟨he, h⟩ | ⟨he, h⟩ <;> rw [he]
  · exact h
  · exact h
  · exact h
  all_goals exact ⟨rfl, h⟩

theorem fdChoice_eq_of_fdSelects {o : FdOp} (h : FdSelects s fire b o) : fdChoice s fire b = o := by
  cases o with
  | nobit => exact if_pos h
  | ignore | sync =>
    obtain ⟨rfl, hy, rfl⟩ := h
    simp [fdChoice, hy]
  | store c =>
    obtain ⟨rfl, rfl, hy, hlt⟩ := h
    simp [fdChoice, hy, hlt]
  | accept c | reject c =>
    obtain ⟨rfl, rfl, hy, hc, hm⟩ := h
    simp [fdChoice, hy, hc, hm]
  | overflow c =>
    obtain ⟨rfl, rfl, hy, hgt⟩ := h
    simp [fdChoice, hy, hgt.not_gt, hgt.ne']

/-- The rows exclude each other, and format FD reads the one that holds. -/
theorem decodeFd_eq_ok_iff (o : FdOp) : decodeFd (fdVector s fire b) = .ok o ↔ FdSelects s fire b o := by
  rw [decodeFd_vector, Except.ok.injEq]
  exact ⟨fun h => h ▸ fdSelects_fdChoice s fire b, fdChoice_eq_of_fdSelects⟩

end Selection

/-- Settles O37: a cursor within the frame is not past its end. -/
theorem overflowIsNeverSelected : Obligations.OverflowIsNeverSelected := by
  intro s fire b c hframe
  rw [decodeFd_vector, ne_eq, Except.ok.injEq]
  exact fdChoice_ne_overflow fire b hframe c

/-- Settles O31: the effects of the two operations, and their rows. -/
theorem fdNobitAndIgnoreChangeNothing : Obligations.FdNobitAndIgnoreChangeNothing :=
  ⟨fun s hlegal => ⟨exec_of_legal .fdNobit s hlegal, exec_of_legal .fdIgnore s hlegal⟩,
    fun _ _ _ => ⟨decodeFd_eq_ok_iff .nobit, decodeFd_eq_ok_iff .ignore⟩⟩

/-- Settles O32: the effect of FD_SYNC, and its row. -/
theorem fdSyncStartsAFrame : Obligations.FdSyncStartsAFrame :=
  ⟨fun s hlegal => exec_of_legal .fdSync s hlegal, fun _ _ _ => decodeFd_eq_ok_iff .sync⟩

/-- Settles O34: the effects of the three operations, and their rows. -/
theorem terminalOperationsReportAndClear : Obligations.TerminalOperationsReportAndClear := by
  intro s b hlegal
  refine ⟨exec_of_legal (.fdAccept b) s hlegal, exec_of_legal (.fdReject b) s hlegal,
    exec_of_legal (.fdOverflow b) s hlegal, fun fire => ⟨?_, ?_, ?_⟩⟩
  · exact (decodeFd_eq_ok_iff (.accept b)).trans (and_iff_right rfl)
  · exact (decodeFd_eq_ok_iff (.reject b)).trans (and_iff_right rfl)
  · exact (decodeFd_eq_ok_iff (.overflow b)).trans (and_iff_right rfl)

/-- The buffer with the bit, at a cursor that is a payload index more one (R161). -/
theorem nextBuf_of_bitCount {s : State} {j : Nat} (b : Bool) (h : s.bitCount = j + 1) :
    nextBuf s b = if j < 8 * s.params.codeBytes then bufWrite s.buf j b else s.buf := by
  have hj : payloadIndex s = j := by rw [payloadIndex_of_pos s (by omega), h, Nat.add_sub_cancel]
  rw [nextBuf, hj]

/-- FD_STORE writes the buffer, the cursor and the decoder's strobes (R167). -/
theorem exec_fdStore_of_eq {s : State} {b : Bool} {n : Nat} {buf : List Byte} (hlegal : legalConfig s = true)
    (hn : nextBitCount s = n) (hbuf : nextBuf s b = buf) :
    exec (.fdStore b) s = .next { s with outcome := 0b00#2, activate := false, bitCount := n, buf := buf } := by
  subst hn hbuf
  exact exec_of_legal (.fdStore b) s hlegal

/-- Settles O33: what FD_STORE writes at a cursor with a payload index and at one without, and its row. -/
theorem fdStoreWritesThePayloadBit : Obligations.FdStoreWritesThePayloadBit := by
  intro s b hlegal
  refine ⟨fun j hj => ?_, fun h0 => ?_, fun fire => ?_⟩
  · exact ⟨nextBitCount s, fun h => if_pos h, exec_fdStore_of_eq hlegal rfl (nextBuf_of_bitCount b hj)⟩
  · have hn : nextBitCount s = 1 := by rw [nextBitCount_eq s (by omega), h0]
    exact ⟨nextBuf s b, nextBuf_length s b, exec_fdStore_of_eq hlegal hn rfl⟩
  · rw [Nat.add_lt_add_iff_right]
    exact (decodeFd_eq_ok_iff (.store b)).trans (and_iff_right rfl)

/-- A step at the interface executes the operation whose row holds. -/
theorem step_fd_eq_exec {s : State} {fire b : Bool} {rest : List Stimulus} {o : FdOp} (hlegal : legalConfig s = true)
    (hin : s.inputs = .fd fire b :: rest) (ho : FdSelects s fire b o) :
    step s = exec o.toInstr { s with inputs := rest, cfgOpen := false } := by
  rw [step_fd s fire b rest hlegal hin, fdChoice_eq_of_fdSelects ho, exec_fdOp]
  exact (whenLegal_of_legal _ _ hlegal).symm

/-- Settles O35: each row of the table. -/
theorem frameDecoderFollowsItsTransitions : Obligations.FrameDecoderFollowsItsTransitions := by
  intro s fire b rest hlegal hin
  have key := fun (o : FdOp) => step_fd_eq_exec (o := o) hlegal hin
  refine ⟨key .nobit, fun hf hy hb => key .ignore ⟨hf, hy, hb⟩, fun hf hy hb => key .sync ⟨hf, hy, hb⟩,
    fun hf hy hlt => key (.store b) ⟨rfl, hf, hy, by omega⟩, fun hf hy hend => ?_,
    fun hf hy hgt => key (.overflow b) ⟨rfl, hf, hy, by omega⟩⟩
  have hc : s.bitCount = 8 * s.params.codeBytes := by omega
  split_ifs with hmatch
  · exact key (.accept b) ⟨rfl, hf, hy, hc, hmatch⟩
  · exact key (.reject b) ⟨rfl, hf, hy, hc, hmatch⟩

end Sys2Proof.Machine
end

section
/-! PROOFS. The code matcher (43_frame_decoder.md R162): two buffers of L bytes are equal where their 8L payload bits are, and the
release code's payload bits are those of its port (30_encoding.md R90). -/

namespace Sys2Proof.Machine

/-- A payload bit is one bit of one byte (20_memory.md R61). -/
theorem bufRead_eq (buf : List Byte) {i k : Nat} (hk : k < 8) :
    bufRead buf (8 * i + (7 - k)) = (buf.getD i 0#8).getLsbD k := by
  have hdiv : (8 * i + (7 - k)) / 8 = i := by omega
  have hmod : 7 - (8 * i + (7 - k)) % 8 = k := by omega
  rw [bufRead, hdiv, hmod]

/-- A buffer is determined by its payload bits. -/
theorem eq_of_bufRead_eq {a c : List Byte} (hlen : a.length = c.length)
    (h : ∀ j, j < 8 * a.length → bufRead a j = bufRead c j) : a = c := by
  refine List.ext_getElem hlen fun i hi hi' => BitVec.eq_of_getLsbD_eq fun k hk => ?_
  have hbit := h (8 * i + (7 - k)) (by omega)
  rwa [bufRead_eq a hk, bufRead_eq c hk, ← List.getElem_eq_getD, ← List.getElem_eq_getD] at hbit

/-- Bit k of byte i of the release code is bit 8L-8-8i+k of its port (R90). -/
theorem rcByte_getLsbD (codeBytes code i : Nat) {k : Nat} (hk : k < 8) :
    (rcByte codeBytes code i).getLsbD k = code.testBit (8 * codeBytes - 8 - 8 * i + k) := by
  rw [rcByte, BitVec.getLsbD_ofNat]
  simp [hk]

/-- Payload bit j of the release code is bit 8L-1-j of its port (R90). -/
theorem bufRead_rcBytes (s : State) {j : Nat} (hj : j < 8 * s.params.codeBytes) :
    bufRead (rcBytes s) j = s.cfg.releaseCode.testBit (8 * s.params.codeBytes - 1 - j) := by
  have hbyte : j / 8 < s.params.codeBytes := by omega
  have hget : (rcBytes s).getD (j / 8) 0#8 = rcByte s.params.codeBytes s.cfg.releaseCode (j / 8) := by
    simp [rcBytes, hbyte]
  rw [bufRead, hget, rcByte_getLsbD _ _ _ (by omega)]
  congr 1
  omega

/-- The buffer with the bit is the release code exactly where every payload bit is (R162). -/
theorem nextBuf_eq_rcBytes_iff {s : State} (b : Bool) (h : BufOk s) :
    nextBuf s b = rcBytes s ↔ ∀ j, j < 8 * s.params.codeBytes →
      bufRead (nextBuf s b) j = s.cfg.releaseCode.testBit (8 * s.params.codeBytes - 1 - j) := by
  have hlen : (nextBuf s b).length = s.params.codeBytes := (nextBuf_length s b).trans h
  constructor
  · intro heq j hj
    rw [heq, bufRead_rcBytes s hj]
  · intro hbits
    refine eq_of_bufRead_eq (hlen.trans (rcBytes_length s).symm) fun j hj => ?_
    rw [hlen] at hj
    rw [hbits j hj, bufRead_rcBytes s hj]

/-- Settles O30: `match` compares the buffers, and these are equal bit by bit. -/
theorem codeMatcherComparesEveryPayloadBit : Obligations.CodeMatcherComparesEveryPayloadBit := by
  intro s b hbuf
  rw [matchFlag, beq_iff_eq]
  exact nextBuf_eq_rcBytes_iff b hbuf

end Sys2Proof.Machine
end

section
/-! PROOFS. A frame at the FrameDecoder's interface (43_frame_decoder.md R172, R174): a sync bit, 8L - 1 stored bits, and the bit that
ends the frame. -/

namespace Sys2Proof.Machine

/-- A written payload bit reads as written, and every other as before (20_memory.md R61). -/
theorem bufRead_bufWrite {buf : List Byte} {j : Nat} (b : Bool) (hj : j < 8 * buf.length) (i : Nat) :
    bufRead (bufWrite buf j b) i = if i = j then b else bufRead buf i := by
  have hij : i / 8 = j / 8 ∧ 7 - i % 8 = 7 - j % 8 ↔ i = j := by omega
  obtain ⟨-, -, hbits⟩ := bufWriteAssignsOneBit buf j b hj
  have hbit := hbits (i / 8) (7 - i % 8) (by omega)
  simp only [hij] at hbit
  exact hbit

/-- `t` is a state after a sync bit and the first `n` of the payload `bits`: these are stored, the others are driven, and nothing is
reported. -/
structure PayloadTaken (s : State) (bits : List Bool) (n : Nat) (t : State) : Prop where
  params : t.params = s.params
  cfg : t.cfg = s.cfg
  inputs : t.inputs = (bits.drop n).map (.fd true)
  syncFlag : t.syncFlag = true
  bitCount : t.bitCount = n + 1
  bufOk : BufOk t
  stored : ∀ j, j < n → bits[j]? = some (bufRead t.buf j)
  outcome : t.outcome = 0b00#2
  activate : t.activate = false

/-- The state in which the frame begins, its sync bit and payload driven. -/
def framed (s : State) (bits : List Bool) : State := { s with inputs := .fd true true :: bits.map (.fd true) }

/-- The payload is the release code, byte 0 first, each byte from its bit 7 (R172, 30_encoding.md R90). -/
def IsReleaseCode (s : State) (bits : List Bool) : Prop :=
  ∀ j, j < bits.length → bits[j]? = some (s.cfg.releaseCode.testBit (bits.length - 1 - j))

/-- The sync bit starts the frame (R166). -/
theorem exists_step_framed {s : State} {bits : List Bool} (hlegal : legalConfig s = true) (hidle : s.syncFlag = false) :
    ∃ t, step (framed s bits) = .next t ∧ PayloadTaken s bits 0 t := by
  have hsync : fdChoice (framed s bits) true true = .sync := fdChoice_eq_of_fdSelects ⟨rfl, hidle, rfl⟩
  refine ⟨_, step_fd (framed s bits) true true _ hlegal rfl, ?_⟩
  rw [hsync]
  exact ⟨rfl, rfl, rfl, rfl, rfl, clearedBuf_length s, fun j hj => absurd hj (Nat.not_lt_zero j), rfl, rfl⟩

section Payload

variable {s t : State} {bits : List Bool} {n : Nat} (hlegal : legalConfig s = true)
  (hlen : bits.length = 8 * s.params.codeBytes) (h : PayloadTaken s bits n t) (hn : n < bits.length)

include hlegal h

/-- The next step takes payload bit n. -/
theorem PayloadTaken.step_eq : step t = .next (performFd (fdChoice t true bits[n])
    { t with inputs := (bits.drop (n + 1)).map (.fd true), cfgOpen := false }) := by
  refine step_fd t true bits[n] _ ((legalConfig_congr h.params h.cfg).trans hlegal) ?_
  rw [h.inputs, List.drop_eq_getElem_cons hn, List.map_cons]

omit hlegal

include hlen

/-- The buffer with payload bit n holds the first n + 1 bits. -/
theorem PayloadTaken.bufRead_nextBuf {j : Nat} (hj : j < n + 1) :
    bits[j]? = some (bufRead (nextBuf t bits[n]) j) := by
  have hframe : n < 8 * t.params.codeBytes := by rw [h.params]; omega
  have hbuf : n < 8 * t.buf.length := by rw [h.bufOk]; exact hframe
  rw [nextBuf_of_bitCount _ h.bitCount, if_pos hframe, bufRead_bufWrite _ hbuf]
  split_ifs with hjn
  · rw [hjn, List.getElem?_eq_getElem hn]
  · exact h.stored j (by omega)

/-- With its last bit the buffer is the release code exactly where the payload is (R162). -/
theorem PayloadTaken.nextBuf_eq_rcBytes_iff (hlast : n + 1 = bits.length) :
    nextBuf t bits[n] = rcBytes t ↔ IsReleaseCode s bits := by
  rw [Machine.nextBuf_eq_rcBytes_iff _ h.bufOk, h.params, h.cfg, ← hlen]
  refine forall₂_congr fun j hj => ?_
  rw [h.bufRead_nextBuf hlen hn (by omega), Option.some.injEq]

include hlegal

/-- A bit before the last is stored (R167). -/
theorem PayloadTaken.store (hlast : n + 1 < bits.length) :
    ∃ u, step t = .next u ∧ PayloadTaken s bits (n + 1) u := by
  have hn : n < bits.length := by omega
  have hcursor : t.bitCount < 8 * t.params.codeBytes := by rw [h.bitCount, h.params]; omega
  have hstore : fdChoice t true bits[n] = .store bits[n] := fdChoice_eq_of_fdSelects ⟨rfl, rfl, h.syncFlag, hcursor⟩
  have hstep := h.step_eq hlegal hn
  rw [hstore] at hstep
  refine ⟨_, hstep, h.params, h.cfg, rfl, h.syncFlag, ?_, (nextBuf_length t bits[n]).trans h.bufOk,
    fun j hj => h.bufRead_nextBuf hlen hn hj, rfl, rfl⟩
  exact (nextBitCount_eq t hcursor.le).trans (congrArg (· + 1) h.bitCount)

/-- The last bit ends the frame: Accept where the payload is the release code, else Reject (R168, R169). -/
theorem PayloadTaken.finish (hlast : n + 1 = bits.length) :
    ∃ u, step t = .next u ∧
      (IsReleaseCode s bits → u.outcome = 0b01#2 ∧ u.activate = true) ∧
      (¬ IsReleaseCode s bits → u.outcome = 0b10#2 ∧ u.activate = false) ∧
      u.syncFlag = false ∧ u.bitCount = 0 ∧ u.buf = List.replicate s.params.codeBytes 0x00#8 := by
  have hn : n < bits.length := by omega
  have hend : t.bitCount = 8 * t.params.codeBytes := by rw [h.bitCount, h.params]; omega
  have hmatch := h.nextBuf_eq_rcBytes_iff hlen hn hlast
  have hcleared : clearedBuf t = List.replicate s.params.codeBytes 0x00#8 := by rw [clearedBuf, h.params]
  have hstep := h.step_eq hlegal hn
  by_cases hgood : IsReleaseCode s bits
  · have haccept : fdChoice t true bits[n] = .accept bits[n] :=
      fdChoice_eq_of_fdSelects ⟨rfl, rfl, h.syncFlag, hend, hmatch.2 hgood⟩
    rw [haccept] at hstep
    exact ⟨_, hstep, fun _ => ⟨rfl, rfl⟩, fun hbad => absurd hgood hbad, rfl, rfl, hcleared⟩
  · have hreject : fdChoice t true bits[n] = .reject bits[n] :=
      fdChoice_eq_of_fdSelects ⟨rfl, rfl, h.syncFlag, hend, hgood ∘ hmatch.1⟩
    rw [hreject] at hstep
    exact ⟨_, hstep, fun hgood' => absurd hgood' hgood, fun _ => ⟨rfl, rfl⟩, rfl, rfl, hcleared⟩

end Payload

/-- All payload bits before the last are stored, by induction on their number. -/
theorem exists_runFor_framed {s : State} {bits : List Bool} (hlegal : legalConfig s = true) (hidle : s.syncFlag = false)
    (hlen : bits.length = 8 * s.params.codeBytes) (n : Nat) (hn : n < bits.length) :
    ∃ t, runFor (n + 1) (framed s bits) = .next t ∧ PayloadTaken s bits n t := by
  induction n with
  | zero =>
    rw [runFor_succ_of_run (runFor_zero _)]
    exact exists_step_framed hlegal hidle
  | succ n ih =>
    obtain ⟨t, hrun, ht⟩ := ih (by omega)
    rw [runFor_succ_of_run hrun]
    exact ht.store hlegal hlen hn

/-- Settles O36: the sync bit, 8L - 1 stored bits, and the bit that ends the frame. -/
theorem frameEndsInAcceptExactlyOnTheCode : Obligations.FrameEndsInAcceptExactlyOnTheCode := by
  intro s bits hlegal hidle hlen
  constructor
  · intro n hpos hn
    obtain ⟨m, rfl⟩ : ∃ m, n = m + 1 := ⟨n - 1, by omega⟩
    obtain ⟨t, hrun, ht⟩ := exists_runFor_framed hlegal hidle hlen m (by omega)
    exact ⟨t, hrun, ht.outcome, ht.activate, ht.syncFlag, ht.bitCount⟩
  · have hL := codeBytes_pos_of_legal hlegal
    obtain ⟨m, hm⟩ : ∃ m, m + 1 = bits.length := ⟨bits.length - 1, by omega⟩
    obtain ⟨t, hrun, ht⟩ := exists_runFor_framed hlegal hidle hlen m (by omega)
    obtain ⟨u, hstep, hu⟩ := ht.finish hlegal hlen hm
    have hend : runFor (bits.length + 1) (framed s bits) = .next u := by rw [← hm, runFor_succ_of_run hrun, hstep]
    exact ⟨u, hend, hu⟩

end Sys2Proof.Machine
end

section
/-! PROOFS. What precedes `activate` (43_frame_decoder.md R168, R175). -/

namespace Sys2Proof.Machine

/-- An FD operation that sets `activate` is FD_ACCEPT. -/
theorem exists_eq_accept_of_activate {o : FdOp} {s : State} (h : (performFd o s).activate = true) : ∃ b, o = .accept b := by
  cases o with
  | accept b => exact ⟨b, rfl⟩
  | nobit | ignore | sync | store | reject | overflow => cases h

/-- Where the selected operation sets `activate`, a Syncing decoder took the last bit of the release code, and is Idle with
outcome 01 (R168). -/
theorem accepted_of_activate {s u : State} {fire b : Bool} (h : (performFd (fdChoice s fire b) u).activate = true) :
    (fire = true ∧ s.syncFlag = true ∧ s.bitCount = 8 * s.params.codeBytes ∧ nextBuf s b = rcBytes s) ∧
      (performFd (fdChoice s fire b) u).outcome = 0b01#2 ∧ (performFd (fdChoice s fire b) u).syncFlag = false := by
  obtain ⟨c, hc⟩ := exists_eq_accept_of_activate h
  have hsel := fdSelects_fdChoice s fire b
  rw [hc] at hsel ⊢
  obtain ⟨-, hsel⟩ := hsel
  exact ⟨hsel, rfl, rfl⟩

/-- A tick that ends the bit period is what lets the bit path set `activate`. -/
theorem fired_of_activate {u : Bool} {s : State} (h : (bitPart u s).activate = true) :
    u = true ∧ s.divCnt.toNat + 1 = bitPeriod s.cfg := by
  by_contra hquiet
  rw [bitPart, if_neg hquiet] at h
  cases h

/-- The sample path writes nothing of the FrameDecoder. -/
theorem cyclePart_frameDecoder (sample : Option Sample) (u : Bool) (s : State) :
    (cyclePart sample u s).activate = (bitPart u (clearStrobes s)).activate ∧
    (cyclePart sample u s).outcome = (bitPart u (clearStrobes s)).outcome ∧
    (cyclePart sample u s).syncFlag = (bitPart u (clearStrobes s)).syncFlag := by
  cases sample <;> simp [cyclePart]

/-- A cycle that sets `activate` fired the level as the last bit of the release code. -/
theorem accepted_of_cyclePart_activate {sample : Option Sample} {u : Bool} {s : State}
    (h : (cyclePart sample u s).activate = true) :
    (u = true ∧ s.divCnt.toNat + 1 = bitPeriod s.cfg) ∧
    (s.syncFlag = true ∧ s.bitCount = 8 * s.params.codeBytes ∧ nextBuf s s.symLevel = rcBytes s) ∧
      (cyclePart sample u s).outcome = 0b01#2 ∧ (cyclePart sample u s).syncFlag = false := by
  obtain ⟨hact, hout, hsync⟩ := cyclePart_frameDecoder sample u s
  rw [hact] at h
  rw [hout, hsync]
  obtain ⟨rfl, hfire⟩ := fired_of_activate h
  rw [bitPart_fired hfire] at h ⊢
  obtain ⟨⟨-, hsel⟩, hdone⟩ := accepted_of_activate h
  exact ⟨⟨rfl, hfire⟩, hsel, hdone⟩

/-- Settles O38: the three kinds of step; in the entry state, where the configuration may change, the decoder is Idle. -/
theorem activateOnlyAfterAcceptance : Obligations.ActivateOnlyAfterAcceptance := by
  rintro s t ⟨-, -, hentry, -⟩ hstep hact
  rcases step_cases hstep with ⟨p, -, -, -, rfl⟩ | ⟨p, hnext, hrst, hheld, -, hcycle⟩ | ⟨fire, b, hnext, -, rfl⟩
  · cases hact
  · rw [cycle_eq] at hcycle
    injection hcycle with hcycle
    subst hcycle
    obtain ⟨⟨htick, hfire⟩, ⟨hsync, hcursor, hmatch⟩, hout, hidle⟩ := accepted_of_cyclePart_activate hact
    have hcfg : p.cfg = s.cfg := hheld.resolve_left fun hopen => by
      obtain ⟨-, -, hidle, -⟩ := hentry hopen
      exact absurd (hsync.symm.trans hidle) (by decide)
    have hrc : rcBytes (latchPorts p (takeStimulus s)) = rcBytes s := by simp [rcBytes, hcfg]
    exact ⟨hout, hsync, hcursor, hidle, .inl ⟨p, hnext, hrst, htick, by simpa [hcfg] using hfire, hmatch.trans hrc⟩⟩
  · obtain ⟨⟨rfl, hsync, hcursor, hmatch⟩, hout, hidle⟩ := accepted_of_activate hact
    exact ⟨hout, hsync, hcursor, hidle, .inr ⟨b, hnext, hmatch⟩⟩

end Sys2Proof.Machine
end

section
/-! PROOFS. The EV operations as clock cycles (45_cycle.md R201 to R206): NOP, TICK, the composition of SAMPLE_TICK, and the
strobes. -/

namespace Sys2Proof.Machine

/-- Settles O39: the effect of NOP, and what its tick of 0 and its fire of 0 select. -/
theorem nopClearsTheStrobes : Obligations.NopClearsTheStrobes :=
  ⟨fun x => decodeEv_vector false false false x, fun s hlegal =>
    ⟨exec_nop s hlegal, (decodeDv_eq_ok_iff .idle).2 rfl, decodeBs_vector false, (decodeFd_eq_ok_iff .nobit).2 rfl⟩⟩

/-- Settles O40: TICK is the bit path on cleared strobes, with its two cases. -/
theorem tickRunsTheBitPath : Obligations.TickRunsTheBitPath := by
  intro s hlegal clear
  have htick : exec .tick s = .next (bitPart true (clearStrobes s)) := exec_of_legal .tick s hlegal
  refine ⟨fun hcount => ⟨_, increment_toNat Config.divCntPastWidth s.divCnt, ?_⟩,
    fun hfire => ⟨_, decodeFd_vector s true s.symLevel, ?_⟩⟩
  · rw [htick, bitPart_counted (s := clearStrobes s) hcount]; rfl
  · rw [htick, bitPart_fired (s := clearStrobes s) hfire, exec_fdOp]
    exact (whenLegal_of_legal _ _ hlegal).symm

/-! The two paths write disjoint registers, and the sample path reads none that the bit path writes (R201, 20_memory.md R69). -/

/-- `s` with the registers of the bit path as `b` has them. -/
def withBitPath (b s : State) : State :=
  { s with
    divCnt := b.divCnt, syncFlag := b.syncFlag, bitCount := b.bitCount, buf := b.buf, bitValid := b.bitValid,
    bitOut := b.bitOut, outcome := b.outcome, activate := b.activate }

section Commute

variable (b s : State) (k : Tone) (x : Sample)

theorem tone_withBitPath : (withBitPath b s).tone k = s.tone k := by cases k <;> rfl

theorem setTone_withBitPath (t : ToneState) : (withBitPath b s).setTone k t = withBitPath b (s.setTone k t) := by
  cases k <;> rfl

theorem performTe_withBitPath (o : TeOp) : performTe o k x (withBitPath b s) = withBitPath b (performTe o k x s) := by
  have htone := tone_withBitPath b s k
  have hadvance : advanceOf k x (withBitPath b s) = advanceOf k x s := advanceOf_congr k x htone rfl rfl
  cases o with
  | step => simp only [performTe, teStep, hadvance, htone, setTone_withBitPath]; rfl
  | complete =>
    have hmag : magnitudeOf k x (withBitPath b s) = magnitudeOf k x s := magnitudeOf_congr k x htone rfl rfl
    simp only [performTe, teComplete, hadvance, hmag, setTone_withBitPath]; rfl

theorem afterUpdates_withBitPath : afterUpdates x (withBitPath b s) = withBitPath b (afterUpdates x s) := by
  have hchoice : ∀ k, teChoice (withBitPath b s) k = teChoice s k := fun k => by
    rw [teChoice, tone_withBitPath]; rfl
  simp only [afterUpdates, hchoice, performTe_withBitPath]

theorem performSd_withBitPath (o : SdOp) : performSd o (withBitPath b s) = withBitPath b (performSd o s) := by
  cases o <;> rfl

/-- The sample path neither reads nor writes the registers of the bit path. -/
theorem samplePart_withBitPath : samplePart x (withBitPath b s) = withBitPath b (samplePart x s) := by
  rw [samplePart, sdSelected_congr x (s := withBitPath b s) (t := s) rfl rfl rfl rfl, afterUpdates_withBitPath,
    performSd_withBitPath, samplePart]

/-- The bit path writes no others, the strobe clear aside. -/
theorem bitPart_eq_withBitPath (u : Bool) :
    bitPart u (clearStrobes s) = withBitPath (bitPart u (clearStrobes s)) (quiet s) := by
  apply State.ext <;> simp [withBitPath]

end Commute

/-- Settles O41: in SAMPLE_TICK the sample path runs on what TICK leaves, which differs from what it finds in SAMPLE in the
registers of the bit path alone. -/
theorem sampleTickIsSampleAndTick : Obligations.SampleTickIsSampleAndTick := by
  intro s x hlegal
  refine ⟨_, _, _, exec_of_legal (.sample x) s hlegal, exec_of_legal .tick s hlegal,
    exec_of_legal (.sampleTick x) s hlegal, ?_⟩
  calc effect (.sampleTick x) s
    _ = samplePart x (withBitPath (effect .tick s) (quiet s)) :=
        congrArg (samplePart x) (bitPart_eq_withBitPath s true)
    _ = withBitPath (effect .tick s) (samplePart x (quiet s)) := samplePart_withBitPath _ _ x
    _ = withBitPath (effect .tick s) (effect (.sample x) s) := by
        rw [← bitPart_clearStrobes_of_no_tick]; rfl

/-! The strobes (R204). -/

/-- Where a window does not complete, no decision is reported. -/
theorem samplePart_winCode_of_incomplete {x : Sample} {s : State}
    (h : ¬ (teChoice s .t0 = .complete ∧ teChoice s .t1 = .complete)) : (samplePart x s).winCode = 0b00#2 := by
  rw [samplePart, sdSelected, if_neg h, performSd_winCode_none]

/-- Before the last bit of a frame no FD operation that is selected reports an outcome (43_frame_decoder.md R163). -/
theorem performFd_fdChoice_strobes_of_lt {s t : State} (fire b : Bool) (h : s.bitCount < 8 * s.params.codeBytes) :
    (performFd (fdChoice s fire b) t).outcome = 0b00#2 ∧ (performFd (fdChoice s fire b) t).activate = false := by
  have hsel := fdSelects_fdChoice s fire b
  cases hc : fdChoice s fire b with
  | nobit | ignore | sync | store => exact ⟨rfl, rfl⟩
  | accept c | reject c =>
    rw [hc] at hsel
    obtain ⟨-, -, -, hlast, -⟩ := hsel
    omega
  | overflow c =>
    rw [hc] at hsel
    obtain ⟨-, -, -, hpast⟩ := hsel
    omega

/-- Settles O43: the three conditions, each on the path that writes the strobe. -/
theorem strobesAreClearedUnlessWritten : Obligations.StrobesAreClearedUnlessWritten := by
  intro s t x hexec
  have ht : t = samplePart x (bitPart true (clearStrobes s)) := exec_next hexec
  rw [ht, samplePart_bitValid, samplePart_bitOut, samplePart_outcome, samplePart_activate]
  refine ⟨fun hwindows => ?_, fun hcount => ?_, fun hfire hne hle => ?_⟩
  · refine samplePart_winCode_of_incomplete ?_
    simpa only [teChoice_afterBitPart, teChoice_eq_complete_iff, tone_t0, tone_t1] using hwindows
  · rw [bitPart_counted (s := clearStrobes s) hcount]
    exact ⟨rfl, rfl, rfl, rfl⟩
  · rw [bitPart_fired (s := clearStrobes s) hfire]
    exact performFd_fdChoice_strobes_of_lt (s := clearStrobes s) true s.symLevel (by simpa using lt_of_le_of_ne hle hne)

end Sys2Proof.Machine
end

section
/-! PROOFS. The step (45_cycle.md R200, R209): the operation a stimulus decodes to, when its sample fits the port, and that a
step under the host's duties completes. -/

namespace Sys2Proof.Machine

variable {s : State} {p : Ports} {rest : List Stimulus}

/-- The decoder reads the operation of the ports (30_encoding.md R81). -/
theorem decode_evWord (p : Ports) : decode (evWord p) = .ok (cycleInstr p) := decodeEv_vector _ _ _ _

/-- A cycle under a held configuration runs that operation on the latched ports. -/
theorem clockCycle_of_held (h : cfgHeld p s = true) : clockCycle p s = runDecoded (cycleInstr p) (latchPorts p s) := by
  rw [clockCycle, if_pos h, decode_evWord]; rfl

theorem runDecoded_of_wellFormed {i : Instr} (h : i.wellFormed s.params = true) : runDecoded i s = exec i s := if_pos h

theorem wellFormed_fdOp (o : FdOp) (q : Params) : o.toInstr.wellFormed q = true := by cases o <;> rfl

/-- The operation of a cycle's ports reads the port `sample` in a cycle without reset that has a sample, and in no other. -/
theorem cycleInstr_wellFormed_iff (p : Ports) (q : Params) : (cycleInstr p).wellFormed q = true ↔
    (p.rst = false → p.sampleValid = true → sampleFits q p.sample = true) := by
  unfold cycleInstr
  cases p.rst with
  | true => simp [Instr.wellFormed]
  | false => cases p.sampleValid <;> cases p.usTick <;> simp [Instr.wellFormed]

theorem nextStimulus_of_cons {q : Stimulus} (hin : s.inputs = q :: rest) : nextStimulus s = q := by
  rw [nextStimulus, hin]

theorem takeStimulus_of_cons {q : Stimulus} (hin : s.inputs = q :: rest) : takeStimulus s = { s with inputs := rest } := by
  rw [takeStimulus, hin, List.tail_cons]

theorem nextStimulus_of_nil (hin : s.inputs = []) : nextStimulus s = .cycle (idlePorts s) := by rw [nextStimulus, hin]

theorem takeStimulus_of_nil (hin : s.inputs = []) : takeStimulus s = s := by
  rw [takeStimulus, hin, List.tail_nil, ← hin]

/-- The step of a cycle that is driven under a held configuration. -/
theorem step_of_cycle (hnext : nextStimulus s = .cycle p) (hheld : cfgHeld p s = true) :
    step s = runDecoded (cycleInstr p) (latchPorts p (takeStimulus s)) := by
  rw [step, hnext]
  exact clockCycle_of_held hheld

/-- The step of the decoder's interface, whatever it selects. -/
theorem step_of_fd {fire b : Bool} {o : FdOp} (hnext : nextStimulus s = .fd fire b)
    (hdec : decodeFd (fdVector s fire b) = .ok o) : step s = exec o.toInstr { takeStimulus s with cfgOpen := false } := by
  have hdec' : decodeFd (fdVector (takeStimulus s) fire b) = .ok o := hdec
  rw [step, hnext, respond, frameStep, hdec']
  exact runDecoded_of_wellFormed (wellFormed_fdOp o _)

/-- Settles O56: the three kinds of stimulus. -/
theorem stepRunsTheDecodedOperation : Obligations.StepRunsTheDecodedOperation := by
  refine ⟨fun s p rest i hin hdec hwf hheld => ?_, fun s fire b rest o hin hdec => ?_, fun s hin => ?_⟩
  · obtain rfl : cycleInstr p = i := by rwa [decode_evWord, Except.ok.injEq] at hdec
    exact step_cycle s p rest hin hheld hwf
  · rw [step_of_fd (nextStimulus_of_cons hin) hdec, takeStimulus_of_cons hin]
  · rw [step_of_cycle (nextStimulus_of_nil hin) (by simp [cfgHeld, idlePorts]), takeStimulus_of_nil hin]
    rfl

/-- No operation refuses a sample: `exec` asks for a legal configuration alone. -/
theorem exec_ne_sampleTooWide (i : Instr) (s : State) : exec i s ≠ .refused .sampleTooWide := by
  cases h : legalConfig s with
  | true => rw [exec_of_legal i s h]; exact fun h => by cases h
  | false => rw [exec_of_refused i s h]; exact fun h => by cases h

/-- A sample is refused exactly where the decoded operation reads one that its port cannot carry. -/
theorem runDecoded_eq_sampleTooWide_iff (i : Instr) (s : State) :
    runDecoded i s = .refused .sampleTooWide ↔ ¬ i.wellFormed s.params = true := by
  by_cases h : i.wellFormed s.params = true
  · rw [runDecoded_of_wellFormed h]
    exact iff_of_false (exec_ne_sampleTooWide i s) (not_not_intro h)
  · exact iff_of_true (if_neg h) h

/-- Settles O55: the operation of the ports is not well-formed exactly in the cycles that read a sample too wide. -/
theorem sampleBeyondThePortIsRefused : Obligations.SampleBeyondThePortIsRefused := by
  intro s p rest hin hheld
  have hrefused : step s = .refused .sampleTooWide ↔
      ¬ (p.rst = false → p.sampleValid = true → p.sample.toNat < 2 ^ s.params.sampleBits) := by
    rw [step_of_cycle (nextStimulus_of_cons hin) hheld, runDecoded_eq_sampleTooWide_iff, cycleInstr_wellFormed_iff,
      sampleFits, decide_eq_true_eq, latchPorts_params, takeStimulus_params]
  refine ⟨fun hrst hvalid hwide => hrefused.2 fun h => hwide.not_gt (h hrst hvalid), fun hfits h => hrefused.1 h ?_⟩
  intro hrst hvalid
  simpa [hrst, hvalid] using hfits

/-- Settles O52: what the host keeps is what a step of either kind asks for. -/
theorem everyAdmittedStepCompletes : Obligations.EveryAdmittedStepCompletes := by
  intro s hparams hhost
  cases hnext : nextStimulus s with
  | fd fire b =>
    rw [hnext] at hhost
    rw [step_of_fd hnext (decodeFd_vector s fire b)]
    exact ⟨_, exec_of_legal _ { takeStimulus s with cfgOpen := false } hhost⟩
  | cycle p =>
    rw [hnext] at hhost
    obtain ⟨hheld, hcfg, hsample⟩ := hhost
    have hlegal : legalConfig (latchPorts p (takeStimulus s)) = true := Bool.and_eq_true_iff.2 ⟨hparams, hcfg⟩
    have hwf : (cycleInstr p).wellFormed (latchPorts p (takeStimulus s)).params = true :=
      (cycleInstr_wellFormed_iff p _).2 hsample
    rw [step_of_cycle hnext hheld, runDecoded_of_wellFormed hwf]
    exact ⟨_, exec_of_legal _ _ hlegal⟩

end Sys2Proof.Machine
end

section
/-! PROOFS. Reset (70_reset_and_hazards.md R240 to R242): the operation RESET, the cycles of a held reset, and the entry state. -/

namespace Sys2Proof.Machine

/-- An EV vector is {rst, sample_valid, us_tick}, bit by bit (30_encoding.md R81). -/
theorem evVector_getLsbD (v : BitVec 3) : evVector (v.getLsbD 2) (v.getLsbD 1) (v.getLsbD 0) = v := by
  revert v; decide

/-- EV 1xx is RESET (R81). -/
theorem decodeEv_of_rst {v : BitVec 3} (x : Sample) (h : v.getLsbD 2 = true) : decodeEv v x = .ok .reset := by
  rw [← evVector_getLsbD v, decodeEv_vector, if_pos h]

/-- Settles O48: the row of RESET, and its effect. -/
theorem resetWritesEveryRegister : Obligations.ResetWritesEveryRegister :=
  ⟨fun _ x hv => decodeEv_of_rst x hv, fun s hlegal => exec_of_legal .reset s hlegal⟩

/-- The entry state is what RESET leaves of itself. -/
theorem resetFor_eq_resetRegisters (q : Params) (c : Cfg) : State.resetFor q c = resetRegisters (State.resetFor q c) := rfl

theorem resetFor_inv {q : Params} {c : Cfg} (hq : paramsLegal q = true) (hc : cfgLegal q c = true) :
    (State.resetFor q c).Inv := by
  rw [resetFor_eq_resetRegisters]
  exact resetRegisters_inv (Bool.and_eq_true_iff.2 ⟨hq, hc⟩)

/-- Settles O50: RESET leaves the invariant, and `State.reset` is the entry state of legal values. -/
theorem entryStateMeetsTheInvariant : Obligations.EntryStateMeetsTheInvariant :=
  ⟨resetFor_inv (by decide) (by decide), fun _ _ => resetFor_inv⟩

section HeldReset

variable {s : State} {p : Ports} {rest : List Stimulus} (hrst : p.rst = true) (hparams : paramsLegal s.params = true)
  (hcfg : cfgLegal s.params p.cfg = true)

include hrst hparams hcfg

/-- A cycle in reset resets the block under the ports driven in it. -/
theorem step_of_rst (hin : s.inputs = .cycle p :: rest) :
    step s = .next (resetRegisters (latchPorts p { s with inputs := rest })) := by
  have hinstr : cycleInstr p = .reset := if_pos hrst
  have hheld : cfgHeld p s = true := by simp [cfgHeld, hrst]
  rw [step_cycle s p rest hin hheld (by rw [hinstr]; rfl), hinstr]
  exact exec_of_legal .reset (latchPorts p { s with inputs := rest }) (Bool.and_eq_true_iff.2 ⟨hparams, hcfg⟩)

/-- However many cycles of it are driven, they leave what one leaves, since RESET reads no register it writes (R241). -/
theorem runFor_held_rst (n : Nat) (hin : s.inputs = List.replicate (n + 1) (.cycle p) ++ rest) :
    runFor (n + 1) s = .next (resetRegisters (latchPorts p { s with inputs := rest })) := by
  induction n generalizing s with
  | zero => rw [runFor_succ, step_of_rst (rest := rest) hrst hparams hcfg hin, andThen, runFor_zero]
  | succ n ih =>
    rw [runFor_succ, step_of_rst hrst hparams hcfg hin, andThen]
    exact ih hparams hcfg rfl

end HeldReset

/-- Settles O49: the first cycle alone and all of them are two runs of a held reset, which differ in the drives left. -/
theorem holdingResetKeepsTheResetState : Obligations.HoldingResetKeepsTheResetState := by
  intro s t u n p hrst hparams hcfg hin hone hall
  have hfirst := runFor_held_rst hrst hparams hcfg (rest := List.replicate n (.cycle p)) 0 hin
  have hlast := runFor_held_rst hrst hparams hcfg (rest := []) n (by rw [hin, List.append_nil])
  obtain rfl := Host.Outcome.next.inj (hone.symm.trans hfirst)
  exact Host.Outcome.next.inj (hall.symm.trans hlast)

end Sys2Proof.Machine
end

section
/-! PROOFS. The configuration rule (70_reset_and_hazards.md R250): which cycle is refused for a change of the `cfg_*` ports. -/

namespace Sys2Proof.Machine

/-- An operation refuses a configuration that is not legal, and nothing else (30_encoding.md R91). -/
theorem eq_refusedConfiguration_of_exec {i : Instr} {s : State} {e : Refusal} (h : exec i s = .refused e) :
    e = .refusedConfiguration := by
  cases hlegal : legalConfig s with
  | true => exact absurd ((exec_of_legal i s hlegal).symm.trans h) nofun
  | false => exact Host.Outcome.refused.inj (h.symm.trans (exec_of_refused i s hlegal))

theorem runDecoded_ne_configurationChanged (i : Instr) (s : State) : runDecoded i s ≠ .refused .configurationChanged := by
  by_cases h : i.wellFormed s.params = true
  · rw [runDecoded_of_wellFormed h]
    exact fun h => absurd (eq_refusedConfiguration_of_exec h) (by decide)
  · rw [(runDecoded_eq_sampleTooWide_iff i s).2 h]
    exact nofun

/-- The step refuses a change exactly where the cycle's ports are not the held ones. -/
theorem step_eq_configurationChanged_iff {s : State} {p : Ports} (hnext : nextStimulus s = .cycle p) :
    step s = .refused .configurationChanged ↔ ¬ cfgHeld p s = true := by
  by_cases hheld : cfgHeld p s = true
  · rw [step_of_cycle hnext hheld]
    exact iff_of_false (runDecoded_ne_configurationChanged _ _) (not_not_intro hheld)
  · rw [step, hnext]
    exact iff_of_true (if_neg hheld) hheld

theorem cfgHeld_iff (p : Ports) (s : State) : cfgHeld p s = true ↔ p.rst = true ∨ s.cfgOpen = true ∨ p.cfg = s.cfg := by
  rw [cfgHeld, Bool.or_eq_true, Bool.or_eq_true, beq_iff_eq, or_assoc]

/-- Settles O54: the cycles that are refused, and that all others are not. -/
theorem configurationChangeWhileRunningIsRefused : Obligations.ConfigurationChangeWhileRunningIsRefused := by
  intro s p rest hin
  have hrefused : step s = .refused .configurationChanged ↔ ¬ (p.rst = true ∨ s.cfgOpen = true ∨ p.cfg = s.cfg) := by
    rw [step_eq_configurationChanged_iff (nextStimulus_of_cons hin), cfgHeld_iff]
  exact ⟨fun hrst hopen hcfg => hrefused.2 (by simp [hrst, hopen, hcfg]), fun hheld h => hrefused.1 h hheld⟩

end Sys2Proof.Machine
end
